-- ==== Sys2Proof/Word.lean ====
section
/-! DEFINITION. The words the block handles and the four waveform kinds.

Bits are numbered from 0 at the least significant bit (R7), which is how `BitVec` numbers them. -/

namespace Sys2Proof

/-- One byte of the output buffer (R9, R50). -/
abbrev Byte := BitVec 8

/-- A command word: 72 bits, delivered whole (R51, R70). -/
abbrev CmdWord := BitVec 72

/-- The 64 bits of an IEEE 754 binary64 encoding: bit 63 sign, bits 62:52 biased exponent,
bits 51:0 fraction (R21). -/
abbrev Binary64 := BitVec 64

/-- The four waveform kinds, in the order of the source's enumeration (R73). -/
inductive Waveform where
  | sine
  | triangle
  | sawtooth
  | square
deriving DecidableEq, Repr

end Sys2Proof
end

