-- ==== Sys2Proof/Config.lean ====
section
/-! DEFINITION. The fixed parameters of the block (R5) and its one open parameter (R15).

`freeSin` is the model's only free value: it has no body, so nothing in Lean can evaluate it or
prove a value of it. The sine the machine uses is `Sys2Proof.Sine.sin` (Machine/Sine.lean), which
keeps of `freeSin` exactly what R15 allows. -/

namespace Sys2Proof.Config

/-- `SAMPLE_RATE` (R5); a constant of the block, not a register (R6). -/
def sampleRate : Nat := 44100

/-- `FS`, the sample rate as binary64 (R5). -/
def fs : Binary64 := 0x40E5888000000000#64

/-- `CHANNELS` (R5). -/
def channels : Nat := 2

/-- `SAMPLE_BYTES` (R5). -/
def sampleBytes : Nat := 2

/-- `FRAME_BYTES = CHANNELS * SAMPLE_BYTES` (R5). -/
def frameBytes : Nat := 4

/-- `AMP_MIN` (R5). -/
def ampMin : Nat := 1

/-- `AMP_MAX` (R5): the largest 16-bit two's-complement integer. -/
def ampMax : Nat := 32767

/-- `DEFAULT_FREQ`: 440.0 (R5). -/
def defaultFreq : Binary64 := 0x407B800000000000#64

/-- `DEFAULT_AMP` (R5). -/
def defaultAmp : BitVec 15 := 5000#15

/-- `DEFAULT_WAVE`: code 0, Sine (R5, R73). -/
def defaultWave : BitVec 2 := 0#2

/-- `LEN_BITS`: a RENDER length is an unsigned 32-bit integer (R5). -/
def lenBits : Nat := 32

/-- `TWO_PI`: the binary64 nearest two times pi (R5). -/
def twoPi : Binary64 := 0x401921FB54442D18#64

/-- The open parameter behind `SIN` (R15; log entry 7): a free value for every argument. -/
opaque freeSin : Binary64 → Binary64

end Sys2Proof.Config
end

