-- ==== Sys2Proof/Machine/Operands.lean ====
section
/-! DEFINITION. The fields of a command word and the operands taken from them (R70, R71, R75): each is a
slice of the word with no scaling, shifting or sign extension. -/

namespace Sys2Proof.Operands

/-- `w[71:64]` (R70). -/
def opcode (w : CmdWord) : BitVec 8 := w.extractLsb' 64 8

/-- `w[63:0]` (R70). -/
def operand (w : CmdWord) : BitVec 64 := w.extractLsb' 0 64

/-- `kind = operand[1:0]` (R75). -/
def kind (x : BitVec 64) : BitVec 2 := x.extractLsb' 0 2

/-- `operand[63:2]`, which SET_WAVEFORM wants zero (R71). -/
def aboveKind (x : BitVec 64) : BitVec 62 := x.extractLsb' 2 62

/-- `freq = operand[63:0]`, bit for bit (R75). -/
def freq (x : BitVec 64) : Binary64 := x

/-- `amp = operand[14:0]` (R75). -/
def amp (x : BitVec 64) : BitVec 15 := x.extractLsb' 0 15

/-- `operand[63:15]`, which SET_AMPLITUDE wants zero (R71). -/
def aboveAmp (x : BitVec 64) : BitVec 49 := x.extractLsb' 15 49

/-- `len = operand[31:0]` (R75). -/
def len (x : BitVec 64) : BitVec 32 := x.extractLsb' 0 32

/-- `operand[63:32]`, which RENDER wants zero (R71). -/
def aboveLen (x : BitVec 64) : BitVec 32 := x.extractLsb' 32 32

/-- A command word from its opcode and operand: `{opcode, operand}` (R7, R70). -/
def command (op : BitVec 8) (x : BitVec 64) : CmdWord := op ++ x

end Sys2Proof.Operands
end

