-- ==== Sys2Proof/Machine/F64.lean ====
section
/-! DEFINITION. The binary64 primitives of R12, R13 and R14, with rounding to nearest, ties to even.

Every finite binary64 value is a whole number of units of 2^-1074. An operation converts its operands
to that exact count (`sUnits`), computes exactly, and rounds once at the end (`roundMag`).
Operands outside the domain a rule gives (a NaN or an infinity where the rule says finite) get the
IEEE 754 result; no state a run reaches contains one (log entry 8). -/

namespace Sys2Proof.F64

/-- The sign bit, `x[63]` (R21). -/
def sign (x : Binary64) : Bool := x.msb

/-- The encoding without its sign bit, `x[62:0]`. -/
def magBits (x : Binary64) : Nat := x.toNat % 2 ^ 63

/-- The biased exponent, `x[62:52]` (R21). -/
def expField (x : Binary64) : Nat := magBits x / 2 ^ 52

/-- The fraction, `x[51:0]` (R21). -/
def fracField (x : Binary64) : Nat := magBits x % 2 ^ 52

/-- `is_finite(x)`: neither an infinity nor a NaN (R12). -/
def isFinite (x : Binary64) : Bool := expField x != 0x7FF

def isNaN (x : Binary64) : Bool := expField x == 0x7FF && fracField x != 0

def isInf (x : Binary64) : Bool := expField x == 0x7FF && fracField x == 0

/-- The bits of an infinity without its sign. -/
def infMag : Nat := 0x7FF * 2 ^ 52

/-- A sign and a 63-bit magnitude put together. -/
def pack (neg : Bool) (mag : Nat) : Binary64 :=
  BitVec.ofNat 64 (if neg then 2 ^ 63 + mag else mag)

def posZero : Binary64 := 0#64
def negZero : Binary64 := 0x8000000000000000#64
def one : Binary64 := 0x3FF0000000000000#64
def two : Binary64 := 0x4000000000000000#64
def nan : Binary64 := 0x7FF8000000000000#64

/-- How many units of 2^-1074 make 1.0. -/
def unitsPerOne : Nat := 2 ^ 1074

/-- The magnitude of a finite encoding, counted in units of 2^-1074: a subnormal is its fraction, a
normal value has the hidden bit. -/
def unitsOfMag (b : Nat) : Nat :=
  if b / 2 ^ 52 = 0 then b % 2 ^ 52 else (2 ^ 52 + b % 2 ^ 52) * 2 ^ (b / 2 ^ 52 - 1)

/-- The magnitude of a finite value in units of 2^-1074. -/
def units (x : Binary64) : Nat := unitsOfMag (magBits x)

/-- A finite value as a signed count of units of 2^-1074. -/
def sUnits (x : Binary64) : Int := if sign x then -(units x : Int) else (units x : Int)

/-- The magnitude bits nearest to `num / den` units (`den > 0`), ties to the even encoding, with no largest
exponent. `sh` is the exponent of the last place of the result, in units. -/
def roundUnits (num den : Nat) : Nat :=
  let sh := Nat.log2 (num / den) - 52
  let d := den * 2 ^ sh
  let q := num / d
  let r := num % d
  let n := if d < 2 * r ∨ (2 * r = d ∧ q % 2 = 1) then q + 1 else q
  sh * 2 ^ 52 + n

/-- roundTiesToEven (R12): the nearest magnitude, or infinity where that passes the largest finite one. -/
def roundMag (num den : Nat) : Nat := min (roundUnits num den) infMag

/-- `f64_add(a, b)` (R12). An exact zero sum is `+0.0` unless both operands are negative zero. -/
def add (a b : Binary64) : Binary64 :=
  if isNaN a || isNaN b then nan
  else if isInf a then (if isInf b && (sign a != sign b) then nan else a)
  else if isInf b then b
  else
    let t := sUnits a + sUnits b
    if t = 0 then (if sign a && sign b then negZero else posZero)
    else pack (decide (t < 0)) (roundMag t.natAbs 1)

/-- `f64_mul(a, b)` (R12). -/
def mul (a b : Binary64) : Binary64 :=
  let neg := sign a != sign b
  if isNaN a || isNaN b then nan
  else if isInf a || isInf b then
    (if magBits a = 0 ∨ magBits b = 0 then nan else pack neg infMag)
  else pack neg (roundMag (units a * units b) unitsPerOne)

/-- `f64_div(a, b)` (R12): a non-zero value divided by zero is an infinity. -/
def div (a b : Binary64) : Binary64 :=
  let neg := sign a != sign b
  if isNaN a || isNaN b then nan
  else if isInf a then (if isInf b then nan else pack neg infMag)
  else if isInf b then pack neg 0
  else if magBits b = 0 then (if magBits a = 0 then nan else pack neg infMag)
  else pack neg (roundMag (units a * unitsPerOne) (units b))

/-- The position of a value that is not a NaN in the order of the reals: encodings of one sign are
ordered as their magnitude bits, and both zeros have position 0. -/
def orderKey (x : Binary64) : Int := if sign x then -(magBits x : Int) else (magBits x : Int)

/-- IEEE `<` (R12): false when either operand is a NaN. -/
def lt (a b : Binary64) : Bool := !isNaN a && !isNaN b && decide (orderKey a < orderKey b)

/-- IEEE `>=` (R12). -/
def ge (a b : Binary64) : Bool := !isNaN a && !isNaN b && decide (orderKey b ≤ orderKey a)

/-- IEEE `==` (R12): `+0.0 == -0.0`. -/
def eq (a b : Binary64) : Bool := !isNaN a && !isNaN b && decide (orderKey a = orderKey b)

/-- `f64_of_int(n)` (R12). -/
def ofInt (n : Int) : Binary64 := pack (decide (n < 0)) (roundMag (n.natAbs * unitsPerOne) 1)

/-- `f64_rem(x, y)` (R13), the C `fmod`: for finite `x >= 0` and `y > 0` the exact value
`x - n*y` with `n` the floor of `x / y`. -/
def rem (x y : Binary64) : Binary64 :=
  if isNaN x || isNaN y || isInf x || decide (magBits y = 0) then nan
  else if isInf y then x
  else pack (sign x) (roundMag (units x % units y) 1)

/-- `floor_int(x)` for finite `x >= 0` (R14). -/
def floorInt (x : Binary64) : Nat := if sign x then 0 else units x / unitsPerOne

/-- `trunc_int(x)` for finite `x`: the fraction discarded, toward zero (R14). -/
def truncInt (x : Binary64) : Int :=
  let n : Int := (units x / unitsPerOne : Nat)
  if sign x then -n else n

/-- `legal_freq(x)` (R77): finite, and negative only as `-0.0`. -/
def legalFreq (x : Binary64) : Bool := isFinite x && (!sign x || decide (magBits x = 0))

/-- The real value of a finite encoding, as an exact rational. -/
def value (x : Binary64) : ℚ := mkRat (sUnits x) unitsPerOne

/-- The binary64 value nearest to a rational, ties to even (R12); zero takes the sign given. -/
def ofRat (neg : Bool) (q : ℚ) : Binary64 :=
  pack neg (roundMag (q.num.natAbs * unitsPerOne) q.den)

end Sys2Proof.F64
end

