-- ==== Sys2Proof/Syntax.lean ====
section
/-! DEFINITION. The instructions of the block: every row of spec/opcode_table.json.

The block has no instruction set (R2). What stands for instructions is the four commands of its
word format, the four step operations a frame step selects, and the two steps of the render engine. -/

namespace Sys2Proof

/-- One constructor per row of the opcode table. Only the four commands carry operands. -/
inductive Instr where
  /-- SET_WAVEFORM (R150): `kind`, a waveform code. -/
  | setWaveform (kind : BitVec 2)
  /-- SET_FREQUENCY (R151): `freq`, a binary64 encoding. -/
  | setFrequency (freq : Binary64)
  /-- SET_AMPLITUDE (R153): `amp`, an unsigned integer. -/
  | setAmplitude (amp : BitVec 15)
  /-- RENDER (R131): `len`, a byte count. -/
  | render (len : BitVec 32)
  /-- SINE_STEP (R104). -/
  | sineStep
  /-- TRI_STEP (R108). -/
  | triStep
  /-- SAW_STEP (R111). -/
  | sawStep
  /-- SQR_STEP (R113). -/
  | sqrStep
  /-- FRAME (R133). -/
  | frame
  /-- COMPLETE (R136). -/
  | complete
deriving DecidableEq, Repr

end Sys2Proof
end

