-- ==== Sys2Proof/WellFormed.lean ====
section
/-! DEFINITION. Which instructions are well formed: the operands the spec calls legal.

Every waveform code is legal (R20), every 32-bit length is (R130), and an instruction without
operands always is. -/

namespace Sys2Proof

/-- A frequency passes `legal_freq` (R77, R151); an amplitude is in `1 .. 32767` (R22, R153). -/
def Instr.wf : Instr → Bool
  | .setWaveform _ => true
  | .setFrequency freq => F64.legalFreq freq
  | .setAmplitude amp => amp != 0#15
  | .render _ => true
  | .sineStep => true
  | .triStep => true
  | .sawStep => true
  | .sqrStep => true
  | .frame => true
  | .complete => true

end Sys2Proof
end

