-- ==== Sys2Proof/Decode.lean ====
section
/-! DEFINITION. The decoder of command words (R76) and of the waveform selector (R74), and the encoder
written from the same tables. -/

namespace Sys2Proof

/-- Why a command word is rejected: the decode reasons of R170, each raised where R76 raises it. -/
inductive Reject where
  /-- The opcode byte is none of `0x01`, `0x02`, `0x03`, `0x10`. -/
  | illegalOpcode
  /-- A must-be-zero operand bit of SET_WAVEFORM or RENDER is 1. -/
  | reservedOperandBits
  /-- A SET_FREQUENCY operand is a NaN, infinite, or negative and not `-0.0`. -/
  | illegalFrequency
  /-- A SET_AMPLITUDE value is 0 or above 32767. -/
  | illegalAmplitude
deriving DecidableEq, Repr

/-- The two encodings the spec has: a command word delivered by the host (format CMD, R70), and the
2-bit value of `WAVE` that a frame reads (format WAVE_SEL, R74). -/
inductive Encoding where
  | command (w : CmdWord)
  | selector (sel : BitVec 2)
deriving DecidableEq, Repr

/-- The waveform a code stands for (R73). -/
def Waveform.ofCode (c : BitVec 2) : Waveform :=
  if c = 0#2 then .sine else if c = 1#2 then .triangle else if c = 2#2 then .sawtooth else .square

/-- The code of a waveform (R73). -/
def Waveform.code : Waveform → BitVec 2
  | .sine => 0#2
  | .triangle => 1#2
  | .sawtooth => 2#2
  | .square => 3#2

/-- The step operation of a waveform (R74). -/
def Waveform.stepOp : Waveform → Instr
  | .sine => .sineStep
  | .triangle => .triStep
  | .sawtooth => .sawStep
  | .square => .sqrStep

/-- `decode(w)` (R76): one command or one named reason for every 72-bit word. -/
def decodeCommand (w : CmdWord) : Except Reject Instr :=
  let op := Operands.opcode w
  let x := Operands.operand w
  if op = 0x01#8 then
    if Operands.aboveKind x ≠ 0#62 then .error .reservedOperandBits
    else .ok (.setWaveform (Operands.kind x))
  else if op = 0x02#8 then
    if F64.legalFreq (Operands.freq x) then .ok (.setFrequency (Operands.freq x))
    else .error .illegalFrequency
  else if op = 0x03#8 then
    if Operands.aboveAmp x ≠ 0#49 ∨ Operands.amp x = 0#15 then .error .illegalAmplitude
    else .ok (.setAmplitude (Operands.amp x))
  else if op = 0x10#8 then
    if Operands.aboveLen x ≠ 0#32 then .error .reservedOperandBits
    else .ok (.render (Operands.len x))
  else .error .illegalOpcode

/-- The step operation a frame runs, from the `WAVE` it read (R74): every value is legal. -/
def decodeSelector (sel : BitVec 2) : Instr := (Waveform.ofCode sel).stepOp

/-- The decoder, over both formats. -/
def decode : Encoding → Except Reject Instr
  | .command w => decodeCommand w
  | .selector sel => .ok (decodeSelector sel)

/-- The encoding of an instruction (R71, R72, R74). FRAME and COMPLETE have none: they are steps the
render engine takes on its own (R133, R136). -/
def encode : Instr → Option Encoding
  | .setWaveform kind => some (.command (Operands.command 0x01#8 (kind.setWidth 64)))
  | .setFrequency freq => some (.command (Operands.command 0x02#8 freq))
  | .setAmplitude amp => some (.command (Operands.command 0x03#8 (amp.setWidth 64)))
  | .render len => some (.command (Operands.command 0x10#8 (len.setWidth 64)))
  | .sineStep => some (.selector 0#2)
  | .triStep => some (.selector 1#2)
  | .sawStep => some (.selector 2#2)
  | .sqrStep => some (.selector 3#2)
  | .frame => none
  | .complete => none

/-- Which encoding a row of the opcode table of `nbits` bits has: a command word is 72 bits, and the
only shorter rows are the 2-bit selectors (log entry 12). A short word that is no selector is read as
a command word whose upper bits are 0, whose opcode is illegal. -/
def tableEncoding (nbits w : Nat) : Encoding :=
  if nbits < 72 ∧ w < 4 then .selector (BitVec.ofNat 2 w) else .command (BitVec.ofNat 72 w)

/-- The instruction the decoder reads from a table row's bits. -/
def decodeTableWord (nbits w : Nat) : Option Instr :=
  match decode (tableEncoding nbits w) with
  | .ok i => some i
  | .error _ => none

/-- The pseudo-instruction `silence` (R81). -/
def silence : Instr := .setFrequency F64.posZero

/-- The pseudo-instruction `render_frames n`, for `n` up to 2^30 - 1 (R81). -/
def renderFrames (n : BitVec 30) : Instr := .render (n ++ 0#2)

end Sys2Proof
end

