-- ==== Sys2Proof/Machine/State.lean ====
section
/-! DEFINITION. The state of the block and of what stands around it, as plain data.

The block's own state is that of R18: three parameter registers, four oscillator records, the render
engine. Around it stand the output buffer of the request in progress (R50), the buffers already
returned to the audio host (R197), the moves still to come from outside (R178, R180), and the wire
that carries a step operation's value to its frame step (R16). -/

namespace Sys2Proof.Machine

/-- A stored sign, one of `+1` and `-1` (R11, R26, R28). -/
inductive Sign where
  | plus
  | minus
deriving DecidableEq, Repr

/-- `tri` (R26). -/
structure Tri where
  level : Int
  sign : Sign
deriving DecidableEq, Repr

/-- `saw` (R27). -/
structure Saw where
  level : Int
deriving DecidableEq, Repr

/-- `sqr` (R28, R29). -/
structure Sqr where
  sign : Sign
  count : Nat
deriving DecidableEq, Repr

/-- `rnd`, the render engine (R31). -/
structure Rnd where
  active : Bool
  len : Nat
  remaining : Nat
  cursor : Nat
deriving DecidableEq, Repr

/-- Bytes by address, in one canonical form: addresses strictly rising (`Memory.wf`). An address that is
not listed holds no value (`Memory.unlisted`). -/
abbrev Memory := List Host.Cell

/-- The output buffer `OUT[0 .. len-1]` of one render request (R50). A byte the request has not written
has no value (R55; log entry 4). -/
structure Buffer where
  len : Nat
  cells : Memory
deriving DecidableEq, Repr

/-- One move from outside, in the interleaving of the agents' steps (R59, R178; log entry 1). -/
inductive Turn where
  /-- The control agent or the audio host delivers a command word; its opcode says which. -/
  | command (w : CmdWord)
  /-- The render engine takes its step, if one is enabled. -/
  | engine
  /-- The host applies the reset signal (R180, R190). -/
  | reset
deriving DecidableEq, Repr

/-- The three agents of R178. -/
inductive Agent where
  | control
  | audioHost
  | renderEngine
deriving DecidableEq, Repr

/-- Who takes the step an instruction is (R178). A step operation runs inside a frame step. -/
def agentOf : Instr → Agent
  | .setWaveform _ => .control
  | .setFrequency _ => .control
  | .setAmplitude _ => .control
  | .render _ => .audioHost
  | .sineStep => .renderEngine
  | .triStep => .renderEngine
  | .sawStep => .renderEngine
  | .sqrStep => .renderEngine
  | .frame => .renderEngine
  | .complete => .renderEngine

structure State where
  /-- `WAVE`, 2 bits (R20). -/
  wave : BitVec 2
  /-- `FREQ`, 64 bits, a binary64 encoding (R21). -/
  freq : Binary64
  /-- `AMP`, 15 bits, unsigned (R22). -/
  amp : BitVec 15
  /-- `theta`, the sine's phase (R25). -/
  theta : Binary64
  /-- `tri` (R26). -/
  tri : Tri
  /-- `saw` (R27). -/
  saw : Saw
  /-- `sqr` (R28, R29). -/
  sqr : Sqr
  /-- `rnd` (R31). -/
  rnd : Rnd
  /-- The value the last step operation returned (R16): the MODEL's own field (log entry 3). Only the
  frame step that ran the operation reads it. -/
  sample : Int
  /-- `OUT`, the buffer of the request in progress or of the last one (R50). -/
  out : Buffer
  /-- The buffers returned to the audio host, in return order (R197): the MODEL's own field (log entry 6). -/
  returned : List Buffer
  /-- The moves still to come, first one first: the MODEL's own field (log entry 1). -/
  inputs : List Turn
deriving DecidableEq, Repr

/-- Why the machine stops with a fault. The spec has no fault of its own: "No error crosses the render
path" (R171). -/
inductive Fault where
  /-- `MemWrite` at an offset outside `OUT[0 .. len-1]`, which does not exist (R50). Raised by FRAME only, in
  states no run reaches (log entry 5). Safe: the machine stops where the spec gives no byte to write. -/
  | outsideBuffer (address : Nat)
deriving DecidableEq, Repr

/-- Why a step is refused (R10, R170). A refusal changes no state. -/
inductive Refusal where
  /-- An instruction without a meaning yet: raised by `exec` alone, for no instruction now. Safe. -/
  | notModelled (mnemonic : String)
  /-- A command word or operand that R76 refuses, with its reason. Raised by the decoder, and by SET_FREQUENCY and
  SET_AMPLITUDE given an operand no word decodes to. Safe (R170: errs toward unprovable). -/
  | illegal (why : Reject)
  /-- `RenderBusy`: RENDER while a request is in progress (R132). Safe. -/
  | renderBusy
  /-- FRAME or COMPLETE asked for in a state where R133 or R136 does not enable it. Never raised by `step`. Safe
  (log entry 9). -/
  | notEnabled
  /-- Reset while a request is in progress, which R190 leaves unmodelled. Raised by a `reset` move. Safe (log
  entry 10). -/
  | resetDuringRequest
deriving DecidableEq, Repr

/-- What an address that is not listed reads as: no value (R55; log entry 4). -/
def Memory.unlisted : Option Byte := none

/-- The canonical form: addresses strictly rising. No byte value equals `Memory.unlisted`, so nothing else is
asked. -/
abbrev Memory.wf (m : Memory) : Prop := m.Pairwise (fun a b => a.1 < b.1)

/-- Canonical, and every address inside the buffer. -/
abbrev Buffer.wf (b : Buffer) : Prop := Memory.wf b.cells ∧ ∀ c ∈ b.cells, c.1 < b.len

/-- No buffer named. -/
def Buffer.empty : Buffer := { len := 0, cells := [] }

/-- The state after reset: every value of the table of R37, no buffer, nothing to come. -/
def State.reset : State where
  wave := Config.defaultWave
  freq := Config.defaultFreq
  amp := Config.defaultAmp
  theta := F64.posZero
  tri := { level := 0, sign := .plus }
  saw := { level := 0 }
  sqr := { sign := .plus, count := 0 }
  rnd := { active := false, len := 0, remaining := 0, cursor := 0 }
  sample := 0
  out := Buffer.empty
  returned := []
  inputs := []

end Sys2Proof.Machine
end

