-- ==== Sys2Proof/Machine/Ops.lean ====
section
/-! DEFINITION. The named operations over registers and memory.

There is no operation for taking an exception: the block raises none (R171, R175). -/

namespace Sys2Proof.Machine

/-! Register writes. A register is written whole (R23). -/

def State.putWave (s : State) (v : BitVec 2) : State := { s with wave := v }
def State.putFreq (s : State) (v : Binary64) : State := { s with freq := v }
def State.putAmp (s : State) (v : BitVec 15) : State := { s with amp := v }
def State.putTheta (s : State) (v : Binary64) : State := { s with theta := v }
def State.putTri (s : State) (v : Tri) : State := { s with tri := v }
def State.putSaw (s : State) (v : Saw) : State := { s with saw := v }
def State.putSqr (s : State) (v : Sqr) : State := { s with sqr := v }
def State.putRnd (s : State) (v : Rnd) : State := { s with rnd := v }
def State.putSample (s : State) (v : Int) : State := { s with sample := v }
def State.putOut (s : State) (v : Buffer) : State := { s with out := v }
def State.putReturned (s : State) (v : List Buffer) : State := { s with returned := v }
def State.putInputs (s : State) (v : List Turn) : State := { s with inputs := v }

/-- The amplitude as the integer `A` of R16. -/
def State.ampValue (s : State) : Nat := s.amp.toNat

/-! Signs. -/

def Sign.toInt : Sign → Int
  | .plus => 1
  | .minus => -1

def Sign.neg : Sign → Sign
  | .plus => .minus
  | .minus => .plus

/-- `clamp(v, lo, hi)` (R11). -/
def clamp (v lo hi : Int) : Int := if v < lo then lo else if hi < v then hi else v

/-! Memory. -/

/-- The byte at an address, or no value. -/
def Memory.read (m : Memory) (a : Nat) : Option Byte :=
  match m with
  | [] => Memory.unlisted
  | c :: rest => if c.1 = a then some c.2 else Memory.read rest a

/-- One byte written, keeping the addresses rising. -/
def Memory.write (m : Memory) (a : Nat) (v : Byte) : Memory :=
  match m with
  | [] => [(a, v)]
  | c :: rest =>
    if a < c.1 then (a, v) :: c :: rest
    else if a = c.1 then (a, v) :: rest
    else c :: Memory.write rest a v

/-- The bytes of the `n`-byte little-endian representation of `v` modulo `2^(8n)`, lowest address first (R9). -/
def littleEndian (n : Nat) (v : Int) : List Byte :=
  match n with
  | 0 => []
  | n + 1 => BitVec.ofInt 8 v :: littleEndian n (v / 256)

/-- Bytes written at rising addresses from `a`. -/
def Memory.writeBytes (m : Memory) (a : Nat) (bytes : List Byte) : Memory :=
  match bytes with
  | [] => m
  | v :: rest => Memory.writeBytes (Memory.write m a v) (a + 1) rest

/-- `L` one-byte writes of 0 to the addresses `0 .. L-1` of an empty memory (R137). -/
def Memory.zeroFill (len : Nat) : Memory := (List.range len).map fun a => (a, 0#8)

/-- The byte of a buffer at an offset. -/
def Buffer.read (b : Buffer) (a : Nat) : Option Byte := Memory.read b.cells a

/-- `MemWrite(a, n, v)` (R9); none where a byte would fall outside `OUT[0 .. len-1]` (log entry 5). -/
def Buffer.memWrite (b : Buffer) (a n : Nat) (v : Int) : Option Buffer :=
  if a + n ≤ b.len then
    some { len := b.len, cells := Memory.writeBytes b.cells a (littleEndian n v) }
  else none

/-- Both channels of one frame: the same sample at `a` and at `a + 2` (R52, R135). -/
def Buffer.writeFrame (b : Buffer) (a : Nat) (v : Int) : Option Buffer :=
  match b.memWrite a Config.sampleBytes v with
  | none => none
  | some b₁ => b₁.memWrite (a + Config.sampleBytes) Config.sampleBytes v

/-- A buffer handed back to the audio host (R176). -/
def State.returnBuffer (s : State) : State := s.putReturned (s.returned ++ [s.out])

end Sys2Proof.Machine
end

