-- ==== Sys2Proof/Machine/Control.lean ====
section
/-! DEFINITION. The parameter-write commands of the control agent (R150 to R154). Each may be issued whether or
not a request is in progress, and writes one register. -/

namespace Sys2Proof.Machine

/-- SET_WAVEFORM (R150). -/
def execSetWaveform (kind : BitVec 2) (s : State) : Host.Outcome State Fault Refusal :=
  .next (s.putWave kind)

/-- SET_FREQUENCY (R151); an operand that fails `legal_freq` is refused (R152; log entry 14). -/
def execSetFrequency (freq : Binary64) (s : State) : Host.Outcome State Fault Refusal :=
  if F64.legalFreq freq then .next (s.putFreq freq) else .refused (.illegal .illegalFrequency)

/-- SET_AMPLITUDE (R153); 0 is refused (R153; log entry 14). -/
def execSetAmplitude (amp : BitVec 15) (s : State) : Host.Outcome State Fault Refusal :=
  if amp = 0#15 then .refused (.illegal .illegalAmplitude) else .next (s.putAmp amp)

end Sys2Proof.Machine
end

