-- ==== Sys2Proof/Machine/Sine.lean ====
section
/-! DEFINITION. `SIN` (R15): a free function, kept within what R15 allows of it.

`sin x` is the free value `Config.freeSin x` wherever that value is admissible, and the correctly rounded
sine `sinRounded x` where it is not. So every function that R15 admits is a possible `sin`, and every
possible `sin` has the properties (a) and (b), and property (c) wherever the block calls it (log entry 7). -/

namespace Sys2Proof.Sine

/-- How many terms of the series are summed. -/
def terms : Nat := 64

/-- `1 - y/((2k)(2k+1)) * (1 - y/((2k+2)(2k+3)) * ...)`, with `n` brackets. -/
def bracket (y : ℚ) (n k : Nat) : ℚ :=
  match n with
  | 0 => 1
  | n + 1 => 1 - y / ((2 * k * (2 * k + 1) : Nat) : ℚ) * bracket y n (k + 1)

/-- The sum of the first `terms` terms of the sine's power series at `x`. -/
def series (x : ℚ) : ℚ := x * bracket (x * x) (terms - 1) 1

/-- The size of the first term left out, `x^129 / 129!`: for `0 <= x` the sum is this close to the real sine. -/
def seriesError (x : ℚ) : ℚ := x ^ (2 * terms + 1) / ((2 * terms + 1).factorial : ℚ)

/-- One unit in the last place of binary64 at a value of magnitude `w`. -/
def ulp (w : ℚ) : ℚ :=
  mkRat (2 ^ (Nat.log2 (w * (F64.unitsPerOne : ℚ)).floor.toNat - 52) : Nat) F64.unitsPerOne

/-- The magnitude of a rational. -/
def mag (q : ℚ) : ℚ := if q < 0 then -q else q

/-- Where the block calls `SIN`: `0 <= x < TWO_PI` (R104, R105). -/
def inRange (x : Binary64) : Bool := F64.ge x F64.posZero && F64.lt x Config.twoPi

/-- Within one unit in the last place of the real sine, as far as the series tells (R15 c): the distance to the
series is at most one unit there, the series' own error added to both. -/
def near (x r : Binary64) : Bool :=
  let t := series (F64.value x)
  let e := seriesError (F64.value x)
  decide (mag (F64.value r - t) ≤ ulp (mag t + e) + e)

/-- What R15 lets a model assume of `SIN` at a finite `x`: the value is finite and within `-1.0 .. 1.0` (a),
`SIN(+0.0) = +0.0` (b), and (c) where the block calls it. -/
def admissible (x r : Binary64) : Bool :=
  F64.isFinite r && decide (F64.units r ≤ F64.unitsPerOne)
    && (x != F64.posZero || r == F64.posZero)
    && (!inRange x || near x r)

/-- The binary64 value nearest to the series, no larger than 1 in magnitude; `+0.0` outside the range. -/
def sinRounded (x : Binary64) : Binary64 :=
  if inRange x then
    let t := series (F64.value x)
    let m := if 1 < mag t then 1 else mag t
    F64.ofRat (decide (t < 0)) m
  else F64.posZero

/-- `SIN(x)` (R15). -/
def sin (x : Binary64) : Binary64 :=
  if F64.isFinite x && !admissible x (Config.freeSin x) then sinRounded x else Config.freeSin x

end Sys2Proof.Sine
end

