-- ==== Sys2Proof/Machine/Oscillators.lean ====
section
/-! DEFINITION. The four step operations (R100 to R115).

Each is a function of the frequency `f`, the amplitude `A` and its own record, giving the new record and the
sample (R16); the meaning reads `f` and `A` from the registers, writes back that one record, and puts
the sample on the wire to the frame step. -/

namespace Sys2Proof.Machine

/-! ## Periods and increment -/

/-- `halfPeriod(f)` (R101). -/
def halfPeriod (f : Binary64) : Nat :=
  if F64.eq f F64.posZero then 0
  else
    let q := F64.div (F64.div Config.fs f) F64.two
    if F64.isFinite q then F64.floorInt q else 0

/-- `period(f)` (R102). -/
def period (f : Binary64) : Nat :=
  if F64.eq f F64.posZero then 0
  else
    let q := F64.div Config.fs f
    if F64.isFinite q then F64.floorInt q else 0

/-- `inc(f)` (R103). -/
def phaseInc (f : Binary64) : Binary64 := F64.div (F64.mul Config.twoPi f) Config.fs

/-! ## SINE_STEP -/

/-- The phase after one increment, wrapped into `[0, TWO_PI)` (R104, R105). -/
def wrapPhase (t : Binary64) : Binary64 :=
  if F64.ge t Config.twoPi then F64.rem t Config.twoPi else t

/-- `A * SIN(t)` as a sample: rounded product, fraction discarded (R104). -/
def sineSample (sin : Binary64 → Binary64) (A : Nat) (t : Binary64) : Int :=
  F64.truncInt (F64.mul (F64.ofInt A) (sin t))

/-- `SINE_STEP(f, A)` (R104) for a given sine: the new phase and the sample. -/
def sineOp (sin : Binary64 → Binary64) (f : Binary64) (A : Nat) (theta : Binary64) : Binary64 × Int :=
  if F64.eq f F64.posZero then (theta, 0)
  else if F64.isFinite (phaseInc f) then
    let t := wrapPhase (F64.add theta (phaseInc f))
    (t, sineSample sin A t)
  else (theta, 0)

/-- The effect of SINE_STEP on the state. -/
def sineStep (s : State) : State :=
  let r := sineOp Sine.sin s.freq s.ampValue s.theta
  (s.putTheta r.1).putSample r.2

/-- SINE_STEP (R104). -/
def execSineStep (s : State) : Host.Outcome State Fault Refusal := .next (sineStep s)

/-! ## TRI_STEP -/

/-- `TRI_STEP(f, A)` (R107, R108): increment, sign test on the new level, output of the new level clamped. -/
def triOp (f : Binary64) (A : Nat) (tri : Tri) : Tri × Int :=
  let hp := halfPeriod f
  if hp = 0 then (tri, 0)
  else
    let size : Int := (2 * A / hp : Nat)
    let level := tri.level + tri.sign.toInt * size
    let sign := if (A : Int) ≤ level then .minus else if level ≤ -(A : Int) then .plus else tri.sign
    ({ level, sign }, clamp level (-(A : Int)) A)

/-- The effect of TRI_STEP on the state. -/
def triStep (s : State) : State :=
  let r := triOp s.freq s.ampValue s.tri
  (s.putTri r.1).putSample r.2

/-- TRI_STEP (R108). -/
def execTriStep (s : State) : Host.Outcome State Fault Refusal := .next (triStep s)

/-! ## SAW_STEP -/

/-- `SAW_STEP(f, A)` (R110, R111): increment, wrap test, output of the stored level clamped. -/
def sawOp (f : Binary64) (A : Nat) (saw : Saw) : Saw × Int :=
  let p := period f
  if p = 0 then (saw, 0)
  else
    let size : Int := (2 * A / p : Nat)
    let sum := saw.level + size
    let level := if (A : Int) ≤ sum then -(A : Int) else sum
    ({ level }, clamp level (-(A : Int)) A)

/-- The effect of SAW_STEP on the state. -/
def sawStep (s : State) : State :=
  let r := sawOp s.freq s.ampValue s.saw
  (s.putSaw r.1).putSample r.2

/-- SAW_STEP (R111). -/
def execSawStep (s : State) : Host.Outcome State Fault Refusal := .next (sawStep s)

/-! ## SQR_STEP -/

/-- `SQR_STEP(f, A)` (R113): flip when the count is a multiple of the half-period, then count, then output. -/
def sqrOp (f : Binary64) (A : Nat) (sqr : Sqr) : Sqr × Int :=
  let hp := halfPeriod f
  if hp = 0 then (sqr, 0)
  else
    let c := sqr.count % hp
    let sign := if c = 0 then sqr.sign.neg else sqr.sign
    ({ sign, count := (c + 1) % hp }, sign.toInt * A)

/-- The effect of SQR_STEP on the state. -/
def sqrStep (s : State) : State :=
  let r := sqrOp s.freq s.ampValue s.sqr
  (s.putSqr r.1).putSample r.2

/-- SQR_STEP (R113). -/
def execSqrStep (s : State) : Host.Outcome State Fault Refusal := .next (sqrStep s)

end Sys2Proof.Machine
end

