-- ==== Sys2Proof/Machine/Render.lean ====
section
/-! DEFINITION. The render path: RENDER, the frame step, completion (R130 to R142). -/

namespace Sys2Proof.Machine

/-! ## RENDER -/

/-- `MALFORMED(len)` (R137): the whole buffer zero, returned at once; no parameter, oscillator or `rnd` state
changes. -/
def malformed (len : Nat) (s : State) : State :=
  (s.putOut { len, cells := Memory.zeroFill len }).returnBuffer

/-- The buffer handed over and the render engine started (R131). -/
def startRequest (len : Nat) (s : State) : State :=
  (s.putOut { len, cells := [] }).putRnd
    { active := true, len, remaining := len / Config.frameBytes, cursor := 0 }

/-- RENDER (R131): busy first (R132, R174), then the length. -/
def execRender (len : BitVec 32) (s : State) : Host.Outcome State Fault Refusal :=
  if s.rnd.active then .refused .renderBusy
  else if len.toNat % Config.frameBytes ≠ 0 then .next (malformed len.toNat s)
  else .next (startRequest len.toNat s)

/-! ## FRAME -/

/-- FRAME's condition (R133). -/
def frameEnabled (s : State) : Bool := s.rnd.active && decide (0 < s.rnd.remaining)

/-- COMPLETE's condition (R136). -/
def completeEnabled (s : State) : Bool := s.rnd.active && decide (s.rnd.remaining = 0)

/-- The one step operation the snapshot's `WAVE` selects (R74, R133, R134). -/
def stepSelected (s : State) : State :=
  match Waveform.ofCode s.wave with
  | .sine => sineStep s
  | .triangle => triStep s
  | .sawtooth => sawStep s
  | .square => sqrStep s

/-- The sample to both channels, then on to the next frame (R52, R133). -/
def writeSample (s : State) : Host.Outcome State Fault Refusal :=
  match s.out.writeFrame s.rnd.cursor s.sample with
  | none => .fault (.outsideBuffer s.rnd.cursor)
  | some out =>
    .next ((s.putOut out).putRnd
      { s.rnd with cursor := s.rnd.cursor + Config.frameBytes, remaining := s.rnd.remaining - 1 })

/-- FRAME (R133). -/
def execFrame (s : State) : Host.Outcome State Fault Refusal :=
  if frameEnabled s then writeSample (stepSelected s) else .refused .notEnabled

/-! ## COMPLETE -/

/-- COMPLETE (R136): the request ends and its buffer is returned. -/
def execComplete (s : State) : Host.Outcome State Fault Refusal :=
  if completeEnabled s then .next ((s.putRnd { s.rnd with active := false }).returnBuffer)
  else .refused .notEnabled

end Sys2Proof.Machine
end

