-- ==== Sys2Proof/Machine/Dispatch.lean ====
section
/-! DEFINITION. One arm per instruction. -/

namespace Sys2Proof.Machine

def exec (i : Instr) (s : State) : Host.Outcome State Fault Refusal :=
  match i with
  | .setWaveform kind => Sys2Proof.Machine.execSetWaveform kind s
  | .setFrequency freq => Sys2Proof.Machine.execSetFrequency freq s
  | .setAmplitude amp => Sys2Proof.Machine.execSetAmplitude amp s
  | .render len => Sys2Proof.Machine.execRender len s
  | .sineStep => Sys2Proof.Machine.execSineStep s
  | .triStep => Sys2Proof.Machine.execTriStep s
  | .sawStep => Sys2Proof.Machine.execSawStep s
  | .sqrStep => Sys2Proof.Machine.execSqrStep s
  | .frame => Sys2Proof.Machine.execFrame s
  | .complete => Sys2Proof.Machine.execComplete s

end Sys2Proof.Machine
end

