-- ==== Sys2Proof/Machine/Agents.lean ====
section
/-! DEFINITION. The moves of the agents (R178): what each kind of `Turn` does, and how an instruction is put where
the next step runs it. `Machine/Step.lean` only calls these. -/

namespace Sys2Proof.Machine

/-- A command word delivered by the host: decoded, then executed (R76, R180). -/
def commandTurn (w : CmdWord) (s : State) : Host.Outcome State Fault Refusal :=
  match decodeCommand w with
  | .ok i => exec i s
  | .error why => .refused (.illegal why)

/-- The render engine's step: FRAME or COMPLETE while a request is in progress (R133, R136). While none is, the block
takes no step and keeps all its state (R184; log entry 2). -/
def engineTurn (s : State) : Host.Outcome State Fault Refusal :=
  if frameEnabled s then exec .frame s
  else if completeEnabled s then exec .complete s
  else .next s

/-- The block's state at its reset values (R37, R190). What is not the block's stays: the buffers and the moves to
come (log entry 10). -/
def resetBlock (s : State) : State :=
  ((State.reset.putOut s.out).putReturned s.returned).putInputs s.inputs

/-- The reset signal (R180, R190), applied only while no request is in progress. -/
def resetTurn (s : State) : Host.Outcome State Fault Refusal :=
  if s.rnd.active then .refused .resetDuringRequest else .next (resetBlock s)

/-- The next move of the interleaving. When no further move comes from outside, the render engine alone moves. -/
def nextTurn (s : State) : Host.Outcome State Fault Refusal :=
  match s.inputs with
  | [] => engineTurn s
  | .command w :: rest => commandTurn w (s.putInputs rest)
  | .engine :: rest => engineTurn (s.putInputs rest)
  | .reset :: rest => resetTurn (s.putInputs rest)

/-- The state in which a frame step is enabled and has room for its bytes: as it is, or with a request of one frame
just started. -/
def readyForFrame (s : State) : State :=
  if frameEnabled s && decide (s.rnd.cursor + Config.frameBytes ≤ s.out.len) then s
  else startRequest Config.frameBytes s

/-- An encoding put where the next step runs it: a command word becomes the next move; a selector becomes the value of
`WAVE`, with the next move the render engine's and a frame to take (log entry 12). -/
def placeEncoding (e : Encoding) (s : State) : State :=
  match e with
  | .command w => s.putInputs (.command w :: s.inputs)
  | .selector sel =>
    let r := readyForFrame s
    (r.putWave sel).putInputs (.engine :: r.inputs)

end Sys2Proof.Machine
end

