-- ==== Sys2Proof/Machine/Step.lean ====
section
/-! DEFINITION. One step of the machine, and the placing of an instruction for the next step. -/

namespace Sys2Proof.Machine

/-- One atomic step (R59): the next move of the interleaving. -/
def step : State → Host.Outcome State Fault Refusal := fun s => nextTurn s

/-- The state with a table row's instruction placed so that the next step runs it. -/
def State.withFetchWord (s : State) (nbits w : Nat) : State := placeEncoding (tableEncoding nbits w) s

end Sys2Proof.Machine
end

