-- ==== Sys2Proof/Machine/Assembler.lean ====
section
/-! DEFINITION. The assembler syntax of R80 and the pseudo-instructions of R81: from a line of text to the command
word the host delivers. -/

namespace Sys2Proof.Assembler

/-! ## Characters and tokens -/

def isBlank (c : Char) : Bool := c == ' ' || c == '\t' || c == '\r'

/-- The tokens of a line; `;` starts a comment (R80). `cur` is the token being read, reversed. -/
def tokens (cs cur : List Char) : List (List Char) :=
  let done : List (List Char) := if cur.isEmpty then [] else [cur.reverse]
  match cs with
  | [] => done
  | c :: rest =>
    if c == ';' then done
    else if isBlank c then done ++ tokens rest []
    else tokens rest (c :: cur)

/-- The part before the first character that satisfies `p`, and the part after it, if there is one. -/
def cut (p : Char → Bool) (cs : List Char) : List Char × Option (List Char) :=
  match cs with
  | [] => ([], none)
  | c :: rest => if p c then ([], some rest) else ((c :: (cut p rest).1), (cut p rest).2)

/-! ## Numbers -/

def digit (c : Char) : Option Nat :=
  let n := c.toNat
  if 48 ≤ n ∧ n ≤ 57 then some (n - 48)
  else if 97 ≤ n ∧ n ≤ 102 then some (n - 87)
  else if 65 ≤ n ∧ n ≤ 70 then some (n - 55)
  else none

def digits (base : Nat) (cs : List Char) (acc : Nat) : Option Nat :=
  match cs with
  | [] => some acc
  | c :: rest =>
    match digit c with
    | none => none
    | some d => if d < base then digits base rest (acc * base + d) else none

/-- One or more digits of a base. -/
def natural (base : Nat) (cs : List Char) : Option Nat :=
  if cs.isEmpty then none else digits base cs 0

/-- A number with an optional sign: whether it is negative, and its magnitude. -/
def signed (cs : List Char) : Bool × List Char :=
  match cs with
  | [] => (false, [])
  | c :: rest => if c == '-' then (true, rest) else if c == '+' then (false, rest) else (false, c :: rest)

/-- The exponent of a decimal: 0 when there is none. -/
def exponent (cs : Option (List Char)) : Option Int :=
  match cs with
  | none => some 0
  | some text =>
    match natural 10 (signed text).2 with
    | none => none
    | some n => some (if (signed text).1 then -(n : Int) else n)

/-- `<decimal>`, rounded to the nearest binary64, ties to even (R80): digits, a fraction and a power of ten, each of
the last two optional (log entry 20). -/
def decimal (cs : List Char) : Option Binary64 :=
  let body := cut (fun c => c == 'e' || c == 'E') (signed cs).2
  let parts := cut (fun c => c == '.') body.1
  let whole := parts.1
  let frac := parts.2.getD []
  if whole.isEmpty || (parts.2.isSome && frac.isEmpty) then none
  else
    match natural 10 (whole ++ frac), exponent body.2 with
    | some n, some e =>
      let up := 10 ^ e.toNat
      let down := 10 ^ ((-e).toNat + frac.length)
      some (F64.pack (signed cs).1 (F64.roundMag (n * up * F64.unitsPerOne) down))
    | _, _ => none

/-! ## Operands -/

/-- `<kind>`: a waveform's name or its code (R80). -/
def kind (cs : List Char) : Option (BitVec 2) :=
  if cs = "sine".toList then some Waveform.sine.code
  else if cs = "triangle".toList then some Waveform.triangle.code
  else if cs = "sawtooth".toList then some Waveform.sawtooth.code
  else if cs = "square".toList then some Waveform.square.code
  else
    match natural 10 cs with
    | some n => if n < 4 then some (BitVec.ofNat 2 n) else none
    | none => none

/-- The operand of `set_frequency`: 16 hex digits after `0x`, or a decimal (R80). -/
def frequency (cs : List Char) : Option Binary64 :=
  match cs with
  | '0' :: 'x' :: hex =>
    if hex.length = 16 then (natural 16 hex).map (BitVec.ofNat 64) else none
  | _ => decimal cs

/-- A decimal integer between two bounds. -/
def bounded (lo hi : Nat) (cs : List Char) : Option Nat :=
  match natural 10 cs with
  | some n => if lo ≤ n ∧ n ≤ hi then some n else none
  | none => none

/-! ## Lines -/

/-- The command word of a mnemonic and its operand (R80, R81). -/
def command (mnemonic arg : List Char) : Option CmdWord :=
  if mnemonic = "set_waveform".toList then
    (kind arg).map fun k => Operands.command 0x01#8 (k.setWidth 64)
  else if mnemonic = "set_frequency".toList then
    (frequency arg).map fun f => Operands.command 0x02#8 f
  else if mnemonic = "set_amplitude".toList then
    (bounded Config.ampMin Config.ampMax arg).map fun n => Operands.command 0x03#8 (BitVec.ofNat 64 n)
  else if mnemonic = "render".toList then
    (bounded 0 4294967295 arg).map fun n => Operands.command 0x10#8 (BitVec.ofNat 64 n)
  else if mnemonic = "render_frames".toList then
    (bounded 0 1073741823 arg).map fun n => Operands.command 0x10#8 (BitVec.ofNat 64 (4 * n))
  else none

/-- One line: no word for a blank line, one word for a command; none where the line is not of the syntax. Mnemonics
are case-insensitive (R80). -/
def line (cs : List Char) : Option (List CmdWord) :=
  match tokens cs [] with
  | [] => some []
  | [m] =>
    if m.map Char.toLower = "silence".toList then some [Operands.command 0x02#8 F64.posZero] else none
  | [m, arg] => (command (m.map Char.toLower) arg).map fun w => [w]
  | _ => none

end Sys2Proof.Assembler
end

