-- ==== Sys2Proof/Safety.lean ====
section
/-! DEFINITION. What holds of every state a run reaches (R33, R34), and the words the statements use: a buffer
written in full, the script of one render call, a correctly rounded result. -/

namespace Sys2Proof.F64

/-- `b` is the magnitude nearest to `num / den` units among the finite ones, the even one of two equally near. -/
def NearestEven (num den b : Nat) : Prop :=
  b < infMag ∧ ∀ c, c < infMag →
    ((num : Int) - den * unitsOfMag b).natAbs ≤ ((num : Int) - den * unitsOfMag c).natAbs ∧
    (c ≠ b → ((num : Int) - den * unitsOfMag b).natAbs = ((num : Int) - den * unitsOfMag c).natAbs → b % 2 = 0)

/-- The largest finite value plus half its last place, in units: from here on a rounded value is an infinity. -/
def overflowUnits : Nat := 2 ^ 2098 - 2 ^ 2044

end Sys2Proof.F64

namespace Sys2Proof.Machine

/-- `+0.0 <= theta < TWO_PI` (R25, R34). -/
def phaseOk (theta : Binary64) : Prop :=
  F64.sign theta = false ∧ F64.lt theta Config.twoPi = true

/-- The bounds of R33 on the triangle, with what makes them hold: a rising level is still below the amplitude of
its last step, a falling one above its negative. -/
def triOk (t : Tri) : Prop :=
  -98301 < t.level ∧ t.level < 98301 ∧
  (t.sign = .plus → t.level < 32767) ∧ (t.sign = .minus → -32767 < t.level)

/-- The bounds of R33 on the stored sawtooth level. -/
def sawOk (w : Saw) : Prop := -32767 ≤ w.level ∧ w.level < 32767

/-- The bytes `0 .. n-1` of a buffer are written, each once, and no other. -/
def Buffer.FilledTo (b : Buffer) (n : Nat) : Prop := b.cells.map Prod.fst = List.range n

/-- A buffer written in full (R54, R136). -/
def Buffer.Complete (b : Buffer) : Prop := b.FilledTo b.len

/-- The bytes of a buffer, in order. -/
def Buffer.bytes (b : Buffer) : List (Option Byte) := (List.range b.len).map b.read

/-- Both channels of every whole frame hold the same bytes (R52, R135). -/
def Buffer.ChannelsEqual (b : Buffer) : Prop :=
  ∀ k, 4 * k + 3 < b.len → b.read (4 * k) = b.read (4 * k + 2) ∧ b.read (4 * k + 1) = b.read (4 * k + 3)

/-- What ties the render engine to its buffer while a request is in progress (R50, R54, R131, R133). -/
def RequestOk (s : State) : Prop :=
  s.rnd.len % 4 = 0 ∧ s.rnd.cursor + 4 * s.rnd.remaining = s.rnd.len ∧
  s.out.len = s.rnd.len ∧ s.out.FilledTo s.rnd.cursor

/-- The bounds of R31 and R33 on the render engine. -/
def rndOk (r : Rnd) : Prop := r.len < 2 ^ 32 ∧ r.remaining < 2 ^ 30 ∧ r.cursor ≤ r.len

/-- What holds of every state a run reaches. -/
structure State.Inv (s : State) : Prop where
  freqLegal : F64.legalFreq s.freq = true
  ampPositive : s.amp ≠ 0#15
  phase : phaseOk s.theta
  tri : triOk s.tri
  saw : sawOk s.saw
  rnd : rndOk s.rnd
  request : s.rnd.active = true → RequestOk s
  out : s.out.wf
  returned : ∀ b ∈ s.returned, b.Complete

/-- Every buffer the machine holds has equal channels. -/
def State.Stereo (s : State) : Prop :=
  s.out.ChannelsEqual ∧ ∀ b ∈ s.returned, b.ChannelsEqual

/-- Every memory the machine holds is in canonical form. -/
def State.MemoryCanonical (s : State) : Prop := s.out.wf ∧ ∀ b ∈ s.returned, b.wf

/-- A run is over when no request is in progress and no further move comes. R197 asks for no further command; that a reset
signal still to come, or an idle move of the render engine still listed, also keeps a run from being over is the model's choice
(log entry 22, DESIGN CHOICE). The observation of a run is `returned` (R197; log entry 6). -/
def State.RunOver (s : State) : Prop := s.rnd.active = false ∧ s.inputs = []

/-- A move of the render engine, or a legal command of the control agent. -/
def Turn.Racing (m : Turn) : Prop :=
  m = .engine ∨ ∃ w i, m = .command w ∧ decodeCommand w = .ok i ∧ agentOf i = .control

/-- The moves of one render call of `n` frames: the command, one move of the render engine for each frame, one for
completion (R179). -/
def renderCall (n : Nat) : List Turn :=
  .command (Operands.command 0x10#8 (BitVec.ofNat 64 (4 * n))) :: List.replicate (n + 1) .engine

end Sys2Proof.Machine
end

