-- ==== Sys2Proof/Certificates/Slice0/Obligations.lean ====
section
/-! DEFINITION. The statements for the provers, in the order of the spec's files. -/

open Sys2Proof Sys2Proof.Machine

/-! ## binary64 (00_scope.md) -/

/-- R12: sums, products and quotients of finite values are correctly rounded. -/
def Obligations.ArithmeticIsCorrectlyRounded : Prop :=
  (∀ num den : Nat, 0 < den →
    (num < den * F64.overflowUnits → F64.NearestEven num den (F64.roundMag num den)) ∧
    (den * F64.overflowUnits ≤ num → F64.roundMag num den = F64.infMag)) ∧
  (∀ a b : Binary64, F64.isFinite a = true → F64.isFinite b = true →
    (F64.sUnits a + F64.sUnits b ≠ 0 →
      F64.magBits (F64.add a b) = F64.roundMag (F64.sUnits a + F64.sUnits b).natAbs 1 ∧
      F64.sign (F64.add a b) = decide (F64.sUnits a + F64.sUnits b < 0)) ∧
    (F64.sUnits a + F64.sUnits b = 0 →
      F64.add a b = if F64.sign a = true ∧ F64.sign b = true then F64.negZero else F64.posZero) ∧
    F64.magBits (F64.mul a b) = F64.roundMag (F64.units a * F64.units b) F64.unitsPerOne ∧
    F64.sign (F64.mul a b) = (F64.sign a != F64.sign b) ∧
    (F64.units b ≠ 0 →
      F64.magBits (F64.div a b) = F64.roundMag (F64.units a * F64.unitsPerOne) (F64.units b) ∧
      F64.sign (F64.div a b) = (F64.sign a != F64.sign b)))

/-- R12: comparisons of finite values are those of the reals, and no comparison with a NaN holds. -/
def Obligations.ComparisonsFollowTheReals : Prop :=
  (∀ a b : Binary64, F64.isFinite a = true → F64.isFinite b = true →
    (F64.lt a b = true ↔ F64.value a < F64.value b) ∧
    (F64.ge a b = true ↔ F64.value b ≤ F64.value a) ∧
    (F64.eq a b = true ↔ F64.value a = F64.value b)) ∧
  (∀ a b : Binary64, F64.isNaN a = true ∨ F64.isNaN b = true →
    F64.lt a b = false ∧ F64.ge a b = false ∧ F64.eq a b = false) ∧
  F64.eq F64.posZero F64.negZero = true

/-- R12: every integer the block converts, at most 65534 in magnitude, converts exactly. -/
def Obligations.IntegersConvertExactly : Prop :=
  ∀ n : Int, n.natAbs ≤ 65534 → F64.isFinite (F64.ofInt n) = true ∧ F64.value (F64.ofInt n) = n

/-- R13: the remainder is exact and lies in `[0, y)`. -/
def Obligations.RemainderIsExact : Prop :=
  ∀ x y : Binary64, F64.isFinite x = true → F64.isFinite y = true →
    0 ≤ F64.value x → 0 < F64.value y →
    F64.isFinite (F64.rem x y) = true ∧
    F64.value (F64.rem x y) = F64.value x - ⌊F64.value x / F64.value y⌋ * F64.value y ∧
    0 ≤ F64.value (F64.rem x y) ∧ F64.value (F64.rem x y) < F64.value y

/-- R14: `floor_int` is the floor, `trunc_int` discards the fraction toward zero. -/
def Obligations.FloorAndTruncation : Prop :=
  (∀ x : Binary64, F64.isFinite x = true → 0 ≤ F64.value x → (F64.floorInt x : Int) = ⌊F64.value x⌋) ∧
  (∀ x : Binary64, F64.isFinite x = true →
    F64.truncInt x = if 0 ≤ F64.value x then ⌊F64.value x⌋ else ⌈F64.value x⌉)

/-- R15 (a) and (b): the sine of a finite value is finite and within `-1.0 .. 1.0`, and the sine of `+0.0` is `+0.0`. -/
def Obligations.SineIsBoundedAndExactAtZero : Prop :=
  (∀ x : Binary64, F64.isFinite x = true →
    F64.isFinite (Sine.sin x) = true ∧ -1 ≤ F64.value (Sine.sin x) ∧ F64.value (Sine.sin x) ≤ 1) ∧
  Sine.sin F64.posZero = F64.posZero

/-- R15 (c), as the model keeps it (log entry 7): in the range where the block calls it, the sine is within one unit in
the last place of the real sine, up to an error below `x / 2^380`. -/
def Obligations.SineIsWithinOneUnitOfTheRealSine : Prop :=
  ∀ x : Binary64, Sine.inRange x = true →
    ∃ w : ℚ,
      |(w : ℝ) - (|Real.sin (F64.value x : ℝ)|)| ≤ 2 * ((F64.value x : ℝ) / 2 ^ 380) ∧
      |(F64.value (Sine.sin x) : ℝ) - Real.sin (F64.value x : ℝ)|
        ≤ (Sine.ulp w : ℝ) + 2 * ((F64.value x : ℝ) / 2 ^ 380)

/-! ## State and memory (10_state.md, 20_memory.md) -/

/-- R37: the state after reset. -/
def Obligations.ResetValues : Prop :=
  State.reset.wave = 0#2 ∧ State.reset.freq = 0x407B800000000000#64 ∧ State.reset.amp = 5000#15 ∧
  State.reset.theta = 0#64 ∧ State.reset.tri = { level := 0, sign := .plus } ∧
  State.reset.saw = { level := 0 } ∧ State.reset.sqr = { sign := .plus, count := 0 } ∧
  State.reset.rnd = { active := false, len := 0, remaining := 0, cursor := 0 }

/-- The invariant holds after reset. -/
def Obligations.ResetMeetsTheInvariant : Prop :=
  State.reset.Inv ∧ State.reset.Stereo

/-- R33, R34: every step keeps the bounds of the integer state, the phase in `[0, TWO_PI)`, the parameters legal, and
the request tied to its buffer, each byte of which is written once. -/
def Obligations.StepKeepsTheInvariant : Prop :=
  ∀ s t : State, s.Inv → step s = .next t → t.Inv

/-- R135: every step keeps the two channels of every frame equal. -/
def Obligations.StepKeepsTheChannelsEqual : Prop :=
  ∀ s t : State, s.Inv → s.Stereo → step s = .next t → t.Stereo

/-- Every step, from every state, keeps every memory in canonical form. -/
def Obligations.StepKeepsMemoryCanonical : Prop :=
  ∀ s t : State, s.MemoryCanonical → step s = .next t → t.MemoryCanonical

/-- R9, R51: `MemWrite` puts the little-endian bytes at rising offsets, leaves every other offset, and stays inside the
buffer. -/
def Obligations.MemWriteIsLittleEndian : Prop :=
  ∀ (b : Buffer) (a n : Nat) (v : Int),
    (a + n ≤ b.len → ∃ b', b.memWrite a n v = some b' ∧ b'.len = b.len ∧
      (∀ i, i < n → b'.read (a + i) = some (BitVec.ofInt 8 (v / 2 ^ (8 * i)))) ∧
      (∀ x, x < a ∨ a + n ≤ x → b'.read x = b.read x)) ∧
    (b.len < a + n → b.memWrite a n v = none)

/-- R58: the control agent writes parameters only, the audio host no parameter and no oscillator, the render engine no
parameter. -/
def Obligations.AgentsKeepToTheirState : Prop :=
  ∀ (i : Instr) (s t : State), exec i s = .next t →
    (agentOf i = .control → t = { s with wave := t.wave, freq := t.freq, amp := t.amp }) ∧
    (agentOf i = .audioHost → t = { s with rnd := t.rnd, out := t.out, returned := t.returned }) ∧
    (agentOf i = .renderEngine →
      t.wave = s.wave ∧ t.freq = s.freq ∧ t.amp = s.amp ∧ t.inputs = s.inputs)

/-- R59, R193: a parameter write reaches the frames taken after it and none before. -/
def Obligations.ParameterWriteReachesLaterFramesOnly : Prop :=
  ∀ (s : State) (w : CmdWord) (i : Instr) (rest : List Turn),
    decodeCommand w = .ok i → agentOf i = .control → frameEnabled s = true →
    s.rnd.cursor + 4 ≤ s.out.len →
    ∃ u, exec i s = .next u ∧
      (Host.Core.run core 2 (s.putInputs (.command w :: .engine :: rest)) : Host.Outcome State Fault Refusal)
        = exec .frame (u.putInputs rest) ∧
      ∃ t, exec .frame s = .next t ∧
        (Host.Core.run core 2 (s.putInputs (.engine :: .command w :: rest)) : Host.Outcome State Fault Refusal)
          = .next ({ t with wave := u.wave, freq := u.freq, amp := u.amp }.putInputs rest)

/-! ## Encoding (30_encoding.md) -/

/-- R82: the words of the example table, from their assembly, and the words it refuses. -/
def Obligations.EncodingExamples : Prop :=
  Assembler.line "set_waveform sine".toList = some [0x010000000000000000#72] ∧
  Assembler.line "set_waveform triangle".toList = some [0x010000000000000001#72] ∧
  Assembler.line "set_waveform sawtooth".toList = some [0x010000000000000002#72] ∧
  Assembler.line "set_waveform square".toList = some [0x010000000000000003#72] ∧
  Assembler.line "set_frequency 440.0".toList = some [0x02407B800000000000#72] ∧
  Assembler.line "set_frequency 441.0".toList = some [0x02407B900000000000#72] ∧
  Assembler.line "set_frequency 0.0".toList = some [0x020000000000000000#72] ∧
  Assembler.line "set_amplitude 5000".toList = some [0x030000000000001388#72] ∧
  Assembler.line "render 4096".toList = some [0x100000000000001000#72] ∧
  Assembler.line "render 16".toList = some [0x100000000000000010#72] ∧
  decodeCommand 0x000000000000000000#72 = .error .illegalOpcode ∧
  decodeCommand 0x010000000000000004#72 = .error .reservedOperandBits ∧
  decodeCommand 0x02BFF0000000000000#72 = .error .illegalFrequency ∧
  decodeCommand 0x027FF0000000000000#72 = .error .illegalFrequency ∧
  decodeCommand 0x030000000000008000#72 = .error .illegalAmplitude ∧
  decodeCommand 0x030000000000000000#72 = .error .illegalAmplitude ∧
  decodeCommand 0x100000000100000000#72 = .error .reservedOperandBits

/-- A few words written out from the encoding tables decode to the instructions they stand for. -/
def Obligations.WrittenWordsDecode : Prop :=
  decodeCommand 0x010000000000000003#72 = .ok (.setWaveform 3#2) ∧
  decodeCommand 0x02407B900000000000#72 = .ok (.setFrequency 0x407B900000000000#64) ∧
  decodeCommand 0x030000000000001388#72 = .ok (.setAmplitude 5000#15) ∧
  decodeCommand 0x100000000000000010#72 = .ok (.render 16#32) ∧
  decodeSelector 0b00#2 = .sineStep ∧ decodeSelector 0b01#2 = .triStep ∧
  decodeSelector 0b10#2 = .sawStep ∧ decodeSelector 0b11#2 = .sqrStep

/-- R70, R71, R74: decoding the encoding of a well-formed instruction gives it back; only FRAME and COMPLETE have no
encoding. -/
def Obligations.DecodeOfEncode : Prop :=
  (∀ (i : Instr) (e : Encoding), i.wf = true → encode i = some e → decode e = .ok i) ∧
  (∀ i : Instr, encode i = none ↔ i = .frame ∨ i = .complete)

/-- R76: the decoder accepts only the encodings of well-formed instructions, so each word has one meaning. -/
def Obligations.DecodedWordsAreEncodings : Prop :=
  ∀ (e : Encoding) (i : Instr), decode e = .ok i → i.wf = true ∧ encode i = some e

/-- R78: the illegal words, each with the reason of R76, and no other word. `w` is read as a number. -/
def Obligations.IllegalWordsAreRefused : Prop :=
  ∀ w : CmdWord,
    let op := w.toNat / 2 ^ 64
    let x := w.toNat % 2 ^ 64
    (decodeCommand w = .error .illegalOpcode ↔ op ≠ 0x01 ∧ op ≠ 0x02 ∧ op ≠ 0x03 ∧ op ≠ 0x10) ∧
    (decodeCommand w = .error .reservedOperandBits ↔ (op = 0x01 ∧ 2 ^ 2 ≤ x) ∨ (op = 0x10 ∧ 2 ^ 32 ≤ x)) ∧
    (decodeCommand w = .error .illegalFrequency ↔
      op = 0x02 ∧ ((x / 2 ^ 52) % 2 ^ 11 = 0x7FF ∨ 2 ^ 63 < x)) ∧
    (decodeCommand w = .error .illegalAmplitude ↔ op = 0x03 ∧ (x = 0 ∨ 32767 < x))

/-- R77: `legal_freq` holds exactly of the finite values that are `>= 0`. -/
def Obligations.LegalFrequenciesAreFiniteAndNotNegative : Prop :=
  ∀ x : Binary64,
    (F64.legalFreq x = true ↔ F64.isFinite x = true ∧ F64.ge x F64.posZero = true) ∧
    (F64.legalFreq x = true ↔
      x.extractLsb' 52 11 ≠ 0x7FF#11 ∧ (x.msb = true → x.extractLsb' 0 63 = 0#63))

/-- R81: the pseudo-instructions. -/
def Obligations.PseudoInstructionsExpand : Prop :=
  encode silence = some (.command 0x020000000000000000#72) ∧
  (∀ n : BitVec 30, ∃ len : BitVec 32, renderFrames n = .render len ∧ len.toNat = 4 * n.toNat)

/-! ## Oscillators (40_oscillators.md) -/

/-- R101, R102, R103: for which legal frequencies above 0 each oscillator takes its guard (R100). The frequencies at
which a quotient or an increment begins to overflow are given by their encodings. -/
def Obligations.DegenerateFrequencies : Prop :=
  ∀ f : Binary64, F64.legalFreq f = true → F64.eq f F64.posZero = false →
    (halfPeriod f = 0 ↔ F64.lt 0x40D5888000000000#64 f = true ∨ F64.lt f 0x00E5888000000001#64 = true) ∧
    (period f = 0 ↔ F64.lt 0x40E5888000000000#64 f = true ∨ F64.lt f 0x00E5888000000001#64 = true) ∧
    (F64.isFinite (phaseInc f) = false ↔ F64.lt 0x7FC45F306DC9C882#64 f = true) ∧
    F64.sign (phaseInc f) = false

/-- R101, R102: the values the rules work out. -/
def Obligations.PeriodExamples : Prop :=
  halfPeriod 0x40D5888000000000#64 = 1 ∧ halfPeriod 0x407B800000000000#64 = 50 ∧
  halfPeriod 0x407B900000000000#64 = 50 ∧ halfPeriod 0x4070680000000000#64 = 84 ∧
  halfPeriod 0x3FE0000000000000#64 = 44100 ∧
  period 0x40E5888000000000#64 = 1 ∧ period 0x40D5888000000000#64 = 2 ∧
  period 0x407B900000000000#64 = 100 ∧ period 0x407B800000000000#64 = 100

/-- R103: the increments the rule works out. -/
def Obligations.IncrementExamples : Prop :=
  phaseInc 0x407B800000000000#64 = 0x3FB00C6938F15E29#64 ∧
  phaseInc 0x40C5888000000000#64 = 0x3FF921FB54442D18#64 ∧
  phaseInc 0x40D5888000000000#64 = 0x400921FB54442D18#64 ∧
  phaseInc 0x40E5888000000000#64 = Config.twoPi ∧
  phaseInc 0x00000000000007E8#64 = F64.posZero

/-- R100, R104: SINE_STEP in every state. The guard leaves the phase and gives 0; otherwise the phase is the wrapped sum
and the sample is taken from it. Nothing but the phase and the sample changes. -/
def Obligations.SineStepAdvancesThePhase : Prop :=
  ∀ s : State,
    let inc := F64.div (F64.mul Config.twoPi s.freq) Config.fs
    let sum := F64.add s.theta inc
    let t := if F64.ge sum Config.twoPi = true then F64.rem sum Config.twoPi else sum
    (F64.eq s.freq F64.posZero = true ∨ F64.isFinite inc = false →
      exec .sineStep s = .next { s with sample := 0 }) ∧
    (F64.eq s.freq F64.posZero = false → F64.isFinite inc = true →
      exec .sineStep s = .next { s with
        theta := t
        sample := F64.truncInt (F64.mul (F64.ofInt s.amp.toNat) (Sine.sin t)) })

/-- R105: SINE_STEP keeps the phase in `[+0.0, TWO_PI)` for every legal frequency. -/
def Obligations.SineStepKeepsThePhaseInRange : Prop :=
  ∀ s : State, F64.legalFreq s.freq = true → phaseOk s.theta →
    ∃ t, exec .sineStep s = .next t ∧ phaseOk t.theta

/-- R105: below two turns the remainder is one subtraction. -/
def Obligations.RemainderIsOneSubtractionBelowTwoTurns : Prop :=
  ∀ t : Binary64, F64.ge t Config.twoPi = true → F64.lt t (F64.mul F64.two Config.twoPi) = true →
    F64.rem t Config.twoPi = F64.add t 0xC01921FB54442D18#64

/-- R104, R106: from reset at 440 Hz, four sine steps give 313, 625, 934, 1240 under every sine that R15 allows. -/
def Obligations.SineWorkedExample : Prop :=
  (sineStep State.reset).theta = 0x3FB00C6938F15E29#64 ∧ (sineStep State.reset).sample = 313 ∧
  (sineStep^[2] State.reset).sample = 625 ∧ (sineStep^[3] State.reset).sample = 934 ∧
  (sineStep^[4] State.reset).sample = 1240 ∧ (sineStep^[4] State.reset).theta = 0x3FD00C6938F15E29#64

/-- R107, R108: TRI_STEP, which `WAVE = 01` selects, in every state, from the half-period of R101; and the worked example of
R108. -/
def Obligations.TriStepMovesTheLevel : Prop :=
  decodeSelector 0b01#2 = .triStep ∧
  exec .triStep State.reset = .next { State.reset with tri := { level := 200, sign := .plus }, sample := 200 } ∧
  ∀ s : State,
    let hp := halfPeriod s.freq
    let A : Int := s.amp.toNat
    let level := s.tri.level + s.tri.sign.toInt * ((2 * s.amp.toNat / hp : Nat) : Int)
    let sign := if A ≤ level then Sign.minus else if level ≤ -A then Sign.plus else s.tri.sign
    (hp = 0 → exec .triStep s = .next { s with sample := 0 }) ∧
    (hp ≠ 0 → exec .triStep s = .next { s with
      tri := { level, sign }
      sample := if level < -A then -A else if A < level then A else level })

/-- R110, R111: SAW_STEP, which `WAVE = 10` selects, in every state, from the period of R102; and the worked example of
R111. -/
def Obligations.SawStepMovesTheLevel : Prop :=
  decodeSelector 0b10#2 = .sawStep ∧
  (∀ s : State, s.freq = 0x407B900000000000#64 → s.amp = 5000#15 → s.saw = { level := 0 } →
    exec .sawStep s = .next { s with saw := { level := 100 }, sample := 100 }) ∧
  ∀ s : State,
    let p := period s.freq
    let A : Int := s.amp.toNat
    let sum := s.saw.level + ((2 * s.amp.toNat / p : Nat) : Int)
    let level := if A ≤ sum then -A else sum
    (p = 0 → exec .sawStep s = .next { s with sample := 0 }) ∧
    (p ≠ 0 → exec .sawStep s = .next { s with
      saw := { level }
      sample := if level < -A then -A else if A < level then A else level })

/-- R113: SQR_STEP, which `WAVE = 11` selects, in every state, from the half-period of R101; and the worked example of R113. -/
def Obligations.SqrStepCountsAndFlips : Prop :=
  decodeSelector 0b11#2 = .sqrStep ∧
  exec .sqrStep State.reset = .next { State.reset with sqr := { sign := .minus, count := 1 }, sample := -5000 } ∧
  ∀ s : State,
    let hp := halfPeriod s.freq
    let c := s.sqr.count % hp
    let sign := if c = 0 then s.sqr.sign.neg else s.sqr.sign
    (hp = 0 → exec .sqrStep s = .next { s with sample := 0 }) ∧
    (hp ≠ 0 → exec .sqrStep s = .next { s with
      sqr := { sign, count := (c + 1) % hp }
      sample := sign.toInt * s.amp.toNat })

/-- R34: every sample a step operation gives lies in `-A .. A`. -/
def Obligations.SamplesNeverExceedTheAmplitude : Prop :=
  ∀ (s t : State) (i : Instr), s.Inv → i = .sineStep ∨ i = .triStep ∨ i = .sawStep ∨ i = .sqrStep →
    exec i s = .next t → -(s.amp.toNat : Int) ≤ t.sample ∧ t.sample ≤ s.amp.toNat

/-- R33: the levels stay within their bounds, and the square's count grows by at most one a step. -/
def Obligations.LevelsStayBounded : Prop :=
  ∀ s t : State, s.amp ≠ 0#15 →
    (triOk s.tri → exec .triStep s = .next t → triOk t.tri) ∧
    (sawOk s.saw → exec .sawStep s = .next t → sawOk t.saw) ∧
    (exec .sqrStep s = .next t → t.sqr.count ≤ s.sqr.count + 1)

/-- R114: over `n` square steps at one half-period, the counter is the source's offset, and a step flips the sign exactly
where the source's formula does. -/
def Obligations.SquareAgreesWithThePerCallFormula : Prop :=
  ∀ s : State, halfPeriod s.freq ≠ 0 →
    (∀ i : Nat, (sqrStep^[i] s).sqr.count % halfPeriod s.freq = (s.sqr.count + i) % halfPeriod s.freq ∧
      ((sqrStep^[i + 1] s).sqr.sign ≠ (sqrStep^[i] s).sqr.sign ↔ (i + s.sqr.count) % halfPeriod s.freq = 0)) ∧
    (∀ n : Nat, 1 ≤ n → (sqrStep^[n] s).sqr.count = (n + s.sqr.count) % halfPeriod s.freq)

/-! ## Render path (41_render.md) -/

/-- R131, R132, R137: RENDER in every state: refused while a request is in progress, before the length is looked at; a
well-formed length starts a request; any other length is answered at once. -/
def Obligations.RenderStartsARequest : Prop :=
  ∀ (len : BitVec 32) (s : State),
    (s.rnd.active = true → exec (.render len) s = .refused .renderBusy) ∧
    (s.rnd.active = false → len.toNat % 4 = 0 → exec (.render len) s = .next { s with
      rnd := { active := true, len := len.toNat, remaining := len.toNat / 4, cursor := 0 }
      out := { len := len.toNat, cells := [] } }) ∧
    (s.rnd.active = false → len.toNat % 4 ≠ 0 → ∃ t, exec (.render len) s = .next t)

/-- R137: a malformed request leaves `len` zero bytes, returned at once, and changes nothing else. -/
def Obligations.MalformedRequestIsSilence : Prop :=
  ∀ (len : BitVec 32) (s : State), s.rnd.active = false → len.toNat % 4 ≠ 0 →
    ∃ out : Buffer, exec (.render len) s = .next { s with out := out, returned := s.returned ++ [out] } ∧
      out.len = len.toNat ∧ out.wf ∧
      ∀ a, out.read a = if a < len.toNat then some 0#8 else none

/-- R138: `render 0` is well formed: the render engine's next step is COMPLETE, and no byte is written. -/
def Obligations.RenderOfZeroCompletesAtOnce : Prop :=
  ∀ s : State, s.rnd.active = false →
    ∃ t, exec (.render 0#32) s = .next t ∧ frameEnabled t = false ∧ completeEnabled t = true ∧
      engineTurn t = exec .complete t ∧
      ∃ u, exec .complete t = .next u ∧ u = { s with
        rnd := { active := false, len := 0, remaining := 0, cursor := 0 }
        out := { len := 0, cells := [] }
        returned := s.returned ++ [{ len := 0, cells := [] }] }

/-- R52, R133: FRAME in every state that enables it and whose frame lies in the buffer: it runs the step operation `WAVE`
selects, writes the sample's two bytes to both channels, and leaves every other byte. -/
def Obligations.FrameWritesTheSelectedSampleToBothChannels : Prop :=
  ∀ s : State, frameEnabled s = true → s.rnd.cursor + 4 ≤ s.out.len →
    ∃ u t, exec (decodeSelector s.wave) s = .next u ∧ exec .frame s = .next t ∧
      t = { u with
        out := t.out
        rnd := { s.rnd with cursor := s.rnd.cursor + 4, remaining := s.rnd.remaining - 1 } } ∧
      t.out.len = s.out.len ∧
      t.out.read s.rnd.cursor = some (BitVec.ofInt 8 u.sample) ∧
      t.out.read (s.rnd.cursor + 1) = some (BitVec.ofInt 8 (u.sample / 256)) ∧
      t.out.read (s.rnd.cursor + 2) = some (BitVec.ofInt 8 u.sample) ∧
      t.out.read (s.rnd.cursor + 3) = some (BitVec.ofInt 8 (u.sample / 256)) ∧
      ∀ a, a < s.rnd.cursor ∨ s.rnd.cursor + 4 ≤ a → t.out.read a = s.out.read a

/-- R133: the sample fits a 16-bit integer, and the two bytes of each channel are its two's complement. -/
def Obligations.FrameBytesAreTheSample : Prop :=
  ∀ s t : State, s.Inv → exec .frame s = .next t →
    ∃ lo hi : Byte, t.out.read s.rnd.cursor = some lo ∧ t.out.read (s.rnd.cursor + 1) = some hi ∧
      (hi ++ lo : BitVec 16).toInt = t.sample ∧
      -(s.amp.toNat : Int) ≤ t.sample ∧ t.sample ≤ s.amp.toNat

/-- Log entry 5: FRAME stops where its frame would fall outside the buffer; log entry 9: an engine step asked for where it
is not enabled is refused. Both are the model's choice. -/
def Obligations.EngineStepsStopOutsideTheirCondition : Prop :=
  ∀ s : State,
    (frameEnabled s = true → s.out.len < s.rnd.cursor + 4 →
      exec .frame s = .fault (.outsideBuffer s.rnd.cursor)) ∧
    (frameEnabled s = false → exec .frame s = .refused .notEnabled) ∧
    (completeEnabled s = false → exec .complete s = .refused .notEnabled)

/-- R134: a frame neither reads nor writes the records of the oscillators it does not select, nor the sample of an earlier
step. -/
def Obligations.FrameIgnoresUnselectedOscillators : Prop :=
  ∀ (s t : State) (theta : Binary64) (tri : Tri) (saw : Saw) (sqr : Sqr) (v : Int),
    exec .frame s = .next t →
    (s.wave = 0#2 → exec .frame { s with tri := tri, saw := saw, sqr := sqr, sample := v }
      = .next { t with tri := tri, saw := saw, sqr := sqr }) ∧
    (s.wave = 1#2 → exec .frame { s with theta := theta, saw := saw, sqr := sqr, sample := v }
      = .next { t with theta := theta, saw := saw, sqr := sqr }) ∧
    (s.wave = 2#2 → exec .frame { s with theta := theta, tri := tri, sqr := sqr, sample := v }
      = .next { t with theta := theta, tri := tri, sqr := sqr }) ∧
    (s.wave = 3#2 → exec .frame { s with theta := theta, tri := tri, saw := saw, sample := v }
      = .next { t with theta := theta, tri := tri, saw := saw })

/-- R24, R140: in any step but a reset, an oscillator's record changes only if `WAVE` selects it. -/
def Obligations.OnlyTheSelectedOscillatorMoves : Prop :=
  ∀ s t : State, step s = .next t → s.inputs.head? ≠ some .reset →
    (s.wave ≠ 0#2 → t.theta = s.theta) ∧ (s.wave ≠ 1#2 → t.tri = s.tri) ∧
    (s.wave ≠ 2#2 → t.saw = s.saw) ∧ (s.wave ≠ 3#2 → t.sqr = s.sqr)

/-- R136: COMPLETE in every state that enables it: the request ends, its buffer is returned, nothing else changes. -/
def Obligations.CompleteReturnsTheBuffer : Prop :=
  ∀ s : State, completeEnabled s = true →
    exec .complete s = .next { s with
      rnd := { s.rnd with active := false }
      returned := s.returned ++ [s.out] }

/-- R54, R136: the buffer COMPLETE returns has the request's length, and each of its bytes is written. -/
def Obligations.ReturnedBufferIsFullyWritten : Prop :=
  ∀ s t : State, s.Inv → exec .complete s = .next t →
    s.out.len = s.rnd.len ∧ t.returned = s.returned ++ [s.out] ∧
    s.out.cells.map Prod.fst = List.range s.rnd.len ∧ ∀ a, a < s.rnd.len → (s.out.read a).isSome = true

/-- R139: rendering `n₁ + n₂` frames in one call and in two leaves the same oscillators and gives the same bytes, in order. -/
def Obligations.RenderingIsSplitInvariant : Prop :=
  ∀ (s : State) (n₁ n₂ : Nat), s.Inv → s.rnd.active = false → n₁ + n₂ < 2 ^ 30 →
    ∃ t u b b₁ b₂,
      (Host.Core.run core (n₁ + n₂ + 2) (s.putInputs (renderCall (n₁ + n₂))) : Host.Outcome State Fault Refusal)
        = .next t ∧
      (Host.Core.run core ((n₁ + 2) + (n₂ + 2)) (s.putInputs (renderCall n₁ ++ renderCall n₂)) :
        Host.Outcome State Fault Refusal) = .next u ∧
      t.theta = u.theta ∧ t.tri = u.tri ∧ t.saw = u.saw ∧ t.sqr = u.sqr ∧
      t.returned = s.returned ++ [b] ∧ u.returned = s.returned ++ [b₁, b₂] ∧
      b₁.len = 4 * n₁ ∧ b₂.len = 4 * n₂ ∧ b.bytes = b₁.bytes ++ b₂.bytes

/-- R179: a well-formed request completes after exactly `len div 4` FRAME steps and one COMPLETE step. -/
def Obligations.RequestCompletesAfterItsFrames : Prop :=
  ∀ (s : State) (len : BitVec 32), s.Inv → s.rnd.active = false → len.toNat % 4 = 0 →
    s.inputs = [.command (Operands.command 0x10#8 (len.setWidth 64))] →
    (∀ k, k ≤ len.toNat / 4 → ∃ t,
      (Host.Core.run core (k + 1) s : Host.Outcome State Fault Refusal) = .next t ∧
      t.rnd.active = true ∧ t.rnd.remaining = len.toNat / 4 - k ∧ t.rnd.cursor = 4 * k) ∧
    ∃ t, (Host.Core.run core (len.toNat / 4 + 2) s : Host.Outcome State Fault Refusal) = .next t ∧
      t.rnd.active = false ∧ t.returned = s.returned ++ [t.out] ∧ t.out.len = len.toNat ∧ t.out.Complete

/-- R61, R179: in any interleaving of a request with legal parameter writes, each move of the render engine takes one frame
and no write holds it up, so the request is as far on as the render engine has moved. -/
def Obligations.RequestAdvancesUnderAnyInterleaving : Prop :=
  ∀ s : State, s.Inv → s.rnd.active = true → (∀ m ∈ s.inputs, m.Racing) → s.inputs.count .engine ≤ s.rnd.remaining →
    ∃ t, (Host.Core.run core s.inputs.length s : Host.Outcome State Fault Refusal) = .next t ∧
      t.rnd.active = true ∧ t.rnd.remaining = s.rnd.remaining - s.inputs.count .engine ∧
      t.rnd.cursor = s.rnd.cursor + 4 * s.inputs.count .engine ∧ t.inputs = [] ∧ t.Inv

/-! ## Parameter writes (42_control.md) -/

/-- R150: SET_WAVEFORM writes `WAVE` and nothing else; a word with a reserved operand bit is refused. -/
def Obligations.SetWaveformWritesWave : Prop :=
  (∀ (kind : BitVec 2) (s : State), exec (.setWaveform kind) s = .next { s with wave := kind }) ∧
  (∀ x : BitVec 64, x.extractLsb' 2 62 ≠ 0#62 →
    decodeCommand (Operands.command 0x01#8 x) = .error .reservedOperandBits) ∧
  decodeCommand 0x010000000000000003#72 = .ok (.setWaveform 3#2)

/-- R151, R152: SET_FREQUENCY writes `FREQ` bit for bit and nothing else, and the decoder refuses an operand that is not
legal. That `exec` refuses such an operand too, which no word decodes to, is the model's choice (log entry 14). -/
def Obligations.SetFrequencyWritesFreq : Prop :=
  ∀ (freq : Binary64) (s : State),
    (F64.legalFreq freq = true →
      decodeCommand (Operands.command 0x02#8 freq) = .ok (.setFrequency freq) ∧
      exec (.setFrequency freq) s = .next { s with freq := freq }) ∧
    (F64.legalFreq freq = false →
      decodeCommand (Operands.command 0x02#8 freq) = .error .illegalFrequency ∧
      exec (.setFrequency freq) s = .refused (.illegal .illegalFrequency))

/-- R153: SET_AMPLITUDE writes `AMP` and nothing else, and the decoder refuses 0 and values above 32767. That `exec` refuses
an amplitude of 0 too, which no word decodes to, is the model's choice (log entry 14). -/
def Obligations.SetAmplitudeWritesAmp : Prop :=
  (∀ (amp : BitVec 15) (s : State), amp ≠ 0#15 → exec (.setAmplitude amp) s = .next { s with amp := amp }) ∧
  (∀ s : State, exec (.setAmplitude 0#15) s = .refused (.illegal .illegalAmplitude)) ∧
  (∀ x : BitVec 64, (1 ≤ x.toNat ∧ x.toNat ≤ 32767 →
      decodeCommand (Operands.command 0x03#8 x) = .ok (.setAmplitude (x.setWidth 15))) ∧
    (x.toNat = 0 ∨ 32767 < x.toNat → decodeCommand (Operands.command 0x03#8 x) = .error .illegalAmplitude))

/-- R154: a frequency of either zero makes every oscillator give 0 and keep its record. -/
def Obligations.SilenceHoldsEveryOscillator : Prop :=
  ∀ s : State, s.freq = F64.posZero ∨ s.freq = F64.negZero →
    exec .sineStep s = .next { s with sample := 0 } ∧ exec .triStep s = .next { s with sample := 0 } ∧
    exec .sawStep s = .next { s with sample := 0 } ∧ exec .sqrStep s = .next { s with sample := 0 }

/-! ## Steps, refusals, reset (60_exceptions.md, 70_reset_and_hazards.md) -/

/-- R76, R180: the step on a delivered command word runs what it decodes to, with the word taken from the moves to come, or
is refused with the decoder's reason. -/
def Obligations.StepRunsTheDecodedCommand : Prop :=
  ∀ (s : State) (w : CmdWord) (rest : List Turn), s.inputs = .command w :: rest →
    (∀ i, decodeCommand w = .ok i → step s = exec i { s with inputs := rest }) ∧
    (∀ why, decodeCommand w = .error why → step s = .refused (.illegal why))

/-- R61, R133, R136, R184: the render engine's step, on its move or when no move is to come: FRAME or COMPLETE while a
request is in progress, and no change of the block's state while none is. -/
def Obligations.StepRunsTheRenderEngine : Prop :=
  ∀ (s : State) (rest : List Turn), s.inputs = .engine :: rest ∨ (s.inputs = [] ∧ rest = []) →
    (s.rnd.active = true → 0 < s.rnd.remaining → step s = exec .frame { s with inputs := rest }) ∧
    (s.rnd.active = true → s.rnd.remaining = 0 → step s = exec .complete { s with inputs := rest }) ∧
    (s.rnd.active = false → step s = .next { s with inputs := rest })

/-- The instruction placed for the next step is the one the next step runs (log entry 12 for the selectors). -/
def Obligations.PlacedInstructionRunsNext : Prop :=
  (∀ (s : State) (w : Nat) (i : Instr), w < 2 ^ 72 → decodeTableWord 72 w = some i →
    step (s.withFetchWord 72 w) = exec i s) ∧
  (∀ (s : State) (w : Nat), w < 4 →
    decodeTableWord 8 w = some (decodeSelector (BitVec.ofNat 2 w)) ∧
    ∃ u v t, u.wave = BitVec.ofNat 2 w ∧ u.freq = s.freq ∧ u.amp = s.amp ∧ u.theta = s.theta ∧
      u.tri = s.tri ∧ u.saw = s.saw ∧ u.sqr = s.sqr ∧ u.inputs = s.inputs ∧
      exec (decodeSelector (BitVec.ofNat 2 w)) u = .next v ∧
      step (s.withFetchWord 8 w) = exec .frame u ∧ exec .frame u = .next t ∧
      t.theta = v.theta ∧ t.tri = v.tri ∧ t.saw = v.saw ∧ t.sqr = v.sqr ∧ t.sample = v.sample)

/-- R61, R170, R171: from a state that meets the invariant, a step is never a fault, and is refused only for a reason of R170,
or for a reset during a request, which the spec leaves unmodelled (log entry 10). -/
def Obligations.StepStopsOnlyForANamedReason : Prop :=
  ∀ s : State, s.Inv →
    (∃ t, step s = .next t) ∨
    (∃ w rest why, s.inputs = .command w :: rest ∧ decodeCommand w = .error why ∧
      step s = .refused (.illegal why)) ∨
    (∃ w rest len, s.inputs = .command w :: rest ∧ decodeCommand w = .ok (.render len) ∧
      s.rnd.active = true ∧ step s = .refused .renderBusy) ∨
    (∃ rest, s.inputs = .reset :: rest ∧ s.rnd.active = true ∧ step s = .refused .resetDuringRequest)

/-- R184, R191, R197: when a run is over, the block takes no step and keeps all its state; after reset, with no move to come,
it is over. That the model shows this as steps that change nothing is its own choice (log entry 2), and so is that a reset
signal or an idle move of the render engine still to come keeps a run from being over (log entry 22). -/
def Obligations.RunOverKeepsTheState : Prop :=
  (∀ (s : State) (k : Nat), s.RunOver → (Host.Core.run core k s : Host.Outcome State Fault Refusal) = .next s) ∧
  State.reset.RunOver

/-- R37, R190: the reset signal, applied while no request is in progress, puts every piece of the block's state to its reset
value. The buffers and the moves to come are not the block's and stay (log entry 10). -/
def Obligations.ResetSignalRestoresTheResetState : Prop :=
  ∀ (s : State) (rest : List Turn), s.inputs = .reset :: rest → s.rnd.active = false →
    step s = .next { State.reset with out := s.out, returned := s.returned, inputs := rest }
end

