-- ==== Sys2Proof/Laws/Encoding.lean ====
section
/-! SUPPORT. Command words as numbers: the opcode and the operand of a word, a word put together from both, and the
operand slices. -/

namespace Sys2Proof.Operands

theorem toNat_command (op : BitVec 8) (x : BitVec 64) : (command op x).toNat = op.toNat * 2 ^ 64 + x.toNat := by
  have := x.isLt
  rw [command, BitVec.toNat_append, ← Nat.shiftLeft_add_eq_or_of_lt (by omega), Nat.shiftLeft_eq]

theorem toNat_opcode (w : CmdWord) : (opcode w).toNat = w.toNat / 2 ^ 64 := by
  have := w.isLt
  rw [opcode, BitVec.extractLsb'_toNat, Nat.shiftRight_eq_div_pow]
  omega

theorem toNat_operand (w : CmdWord) : (operand w).toNat = w.toNat % 2 ^ 64 := by
  rw [operand, BitVec.extractLsb'_toNat, Nat.shiftRight_zero]

@[simp] theorem opcode_command (op : BitVec 8) (x : BitVec 64) : opcode (command op x) = op := by
  apply BitVec.eq_of_toNat_eq
  have := x.isLt
  rw [toNat_opcode, toNat_command]
  omega

@[simp] theorem operand_command (op : BitVec 8) (x : BitVec 64) : operand (command op x) = x := by
  apply BitVec.eq_of_toNat_eq
  have := x.isLt
  rw [toNat_operand, toNat_command]
  omega

@[simp] theorem command_opcode_operand (w : CmdWord) : command (opcode w) (operand w) = w := by
  apply BitVec.eq_of_toNat_eq
  rw [toNat_command, toNat_opcode, toNat_operand]
  omega

/-! ## Slices of the operand -/

theorem toNat_kind (x : BitVec 64) : (kind x).toNat = x.toNat % 4 := by
  rw [kind, BitVec.extractLsb'_toNat, Nat.shiftRight_zero]

theorem toNat_aboveKind (x : BitVec 64) : (aboveKind x).toNat = x.toNat / 4 := by
  have := x.isLt
  rw [aboveKind, BitVec.extractLsb'_toNat, Nat.shiftRight_eq_div_pow]
  omega

theorem toNat_amp (x : BitVec 64) : (amp x).toNat = x.toNat % 2 ^ 15 := by
  rw [amp, BitVec.extractLsb'_toNat, Nat.shiftRight_zero]

theorem toNat_aboveAmp (x : BitVec 64) : (aboveAmp x).toNat = x.toNat / 2 ^ 15 := by
  have := x.isLt
  rw [aboveAmp, BitVec.extractLsb'_toNat, Nat.shiftRight_eq_div_pow]
  omega

theorem toNat_len (x : BitVec 64) : (len x).toNat = x.toNat % 2 ^ 32 := by
  rw [len, BitVec.extractLsb'_toNat, Nat.shiftRight_zero]

theorem toNat_aboveLen (x : BitVec 64) : (aboveLen x).toNat = x.toNat / 2 ^ 32 := by
  have := x.isLt
  rw [aboveLen, BitVec.extractLsb'_toNat, Nat.shiftRight_eq_div_pow]
  omega

theorem aboveKind_eq_zero (x : BitVec 64) : aboveKind x = 0#62 ↔ x.toNat < 4 := by
  rw [← BitVec.toNat_inj, toNat_aboveKind, BitVec.toNat_ofNat]
  omega

theorem aboveAmp_eq_zero (x : BitVec 64) : aboveAmp x = 0#49 ↔ x.toNat ≤ 32767 := by
  rw [← BitVec.toNat_inj, toNat_aboveAmp, BitVec.toNat_ofNat]
  omega

theorem amp_eq_zero (x : BitVec 64) (h : x.toNat ≤ 32767) : amp x = 0#15 ↔ x.toNat = 0 := by
  rw [← BitVec.toNat_inj, toNat_amp, BitVec.toNat_ofNat]
  omega

theorem aboveLen_eq_zero (x : BitVec 64) : aboveLen x = 0#32 ↔ x.toNat < 2 ^ 32 := by
  rw [← BitVec.toNat_inj, toNat_aboveLen, BitVec.toNat_ofNat]
  omega

/-! ## Operands widened to 64 bits -/

@[simp] theorem kind_setWidth (k : BitVec 2) : kind (k.setWidth 64) = k := by
  apply BitVec.eq_of_toNat_eq
  have := k.isLt
  rw [toNat_kind, BitVec.toNat_setWidth]
  omega

@[simp] theorem aboveKind_setWidth (k : BitVec 2) : aboveKind (k.setWidth 64) = 0#62 := by
  rw [aboveKind_eq_zero, BitVec.toNat_setWidth]
  have := k.isLt
  omega

@[simp] theorem amp_setWidth (a : BitVec 15) : amp (a.setWidth 64) = a := by
  apply BitVec.eq_of_toNat_eq
  have := a.isLt
  rw [toNat_amp, BitVec.toNat_setWidth]
  omega

@[simp] theorem aboveAmp_setWidth (a : BitVec 15) : aboveAmp (a.setWidth 64) = 0#49 := by
  rw [aboveAmp_eq_zero, BitVec.toNat_setWidth]
  have := a.isLt
  omega

@[simp] theorem len_setWidth (n : BitVec 32) : len (n.setWidth 64) = n := by
  apply BitVec.eq_of_toNat_eq
  have := n.isLt
  rw [toNat_len, BitVec.toNat_setWidth]
  omega

@[simp] theorem aboveLen_setWidth (n : BitVec 32) : aboveLen (n.setWidth 64) = 0#32 := by
  rw [aboveLen_eq_zero, BitVec.toNat_setWidth]
  have := n.isLt
  omega

/-- An operand whose upper bits are zero is its slice, widened. -/
theorem setWidth_kind {x : BitVec 64} (h : aboveKind x = 0#62) : (kind x).setWidth 64 = x := by
  rw [aboveKind_eq_zero] at h
  apply BitVec.eq_of_toNat_eq
  rw [BitVec.toNat_setWidth, toNat_kind]
  omega

theorem setWidth_amp {x : BitVec 64} (h : aboveAmp x = 0#49) : (amp x).setWidth 64 = x := by
  rw [aboveAmp_eq_zero] at h
  apply BitVec.eq_of_toNat_eq
  rw [BitVec.toNat_setWidth, toNat_amp]
  omega

theorem setWidth_len {x : BitVec 64} (h : aboveLen x = 0#32) : (len x).setWidth 64 = x := by
  rw [aboveLen_eq_zero] at h
  apply BitVec.eq_of_toNat_eq
  rw [BitVec.toNat_setWidth, toNat_len]
  omega

end Sys2Proof.Operands

namespace Sys2Proof

/-- The words of a RENDER command decode to it, whatever its length. -/
theorem decodeCommand_render (len : BitVec 32) :
    decodeCommand (Operands.command 0x10#8 (len.setWidth 64)) = .ok (.render len) := by
  simp [decodeCommand]

/-- Everything the decoder can answer with a command: one of the four, its operand legal. -/
theorem decodeCommand_ok {w : CmdWord} {i : Instr} (h : decodeCommand w = .ok i) :
    (Operands.opcode w = 0x01#8 ∧ Operands.aboveKind (Operands.operand w) = 0#62 ∧
      i = .setWaveform (Operands.kind (Operands.operand w))) ∨
    (Operands.opcode w = 0x02#8 ∧ F64.legalFreq (Operands.operand w) = true ∧
      i = .setFrequency (Operands.operand w)) ∨
    (Operands.opcode w = 0x03#8 ∧ Operands.aboveAmp (Operands.operand w) = 0#49 ∧
      Operands.amp (Operands.operand w) ≠ 0#15 ∧ i = .setAmplitude (Operands.amp (Operands.operand w))) ∨
    (Operands.opcode w = 0x10#8 ∧ Operands.aboveLen (Operands.operand w) = 0#32 ∧
      i = .render (Operands.len (Operands.operand w))) := by
  unfold decodeCommand at h
  dsimp only at h
  split_ifs at h with h1 h2 h3 h4 h5 h6 h7 h8
  · exact Or.inl ⟨h1, not_not.1 h2, (Except.ok.inj h).symm⟩
  · exact Or.inr (Or.inl ⟨h3, h4, (Except.ok.inj h).symm⟩)
  · have h6 := not_or.1 h6
    exact Or.inr (Or.inr (Or.inl ⟨h5, not_not.1 h6.1, h6.2, (Except.ok.inj h).symm⟩))
  · exact Or.inr (Or.inr (Or.inr ⟨h7, not_not.1 h8, (Except.ok.inj h).symm⟩))

end Sys2Proof
end

