-- ==== Sys2Proof/Laws/F64.lean ====
section
/-! SUPPORT. Rounding, order, remainder and integers of the binary64 primitives: `roundUnits` gives the nearest
magnitude and keeps order, a representable value rounds to itself, the remainder is exact. -/

set_option Elab.async false

namespace Sys2Proof.F64

theorem unitsOfMag_split (e f : Nat) (hf : f < 2 ^ 52) :
    unitsOfMag (e * 2 ^ 52 + f) = if e = 0 then f else (2 ^ 52 + f) * 2 ^ (e - 1) := by
  have h1 : (e * 2 ^ 52 + f) / 2 ^ 52 = e := by omega
  have h2 : (e * 2 ^ 52 + f) % 2 ^ 52 = f := by omega
  simp only [unitsOfMag, h1, h2]

/-- The value of a last-place exponent and an integer significand, the way `roundMag` packs them. -/
theorem unitsOfMag_pack (sh n : Nat) (hlo : sh = 0 ∨ 2 ^ 52 ≤ n) (hhi : n ≤ 2 ^ 53) :
    unitsOfMag (sh * 2 ^ 52 + n) = n * 2 ^ sh := by
  rcases Nat.lt_or_ge n (2 ^ 52) with h | h
  · have : sh = 0 := by omega
    subst this
    rw [unitsOfMag_split 0 n h, if_pos rfl, pow_zero, Nat.mul_one]
  · rcases Nat.lt_or_ge n (2 ^ 53) with h' | h'
    · have e : sh * 2 ^ 52 + n = (sh + 1) * 2 ^ 52 + (n - 2 ^ 52) := by omega
      rw [e, unitsOfMag_split _ _ (by omega)]
      rw [if_neg (Nat.succ_ne_zero sh), Nat.add_sub_cancel, Nat.add_sub_cancel' h]
    · have hn : n = 2 ^ 53 := by omega
      subst hn
      have e : sh * 2 ^ 52 + 2 ^ 53 = (sh + 2) * 2 ^ 52 + 0 := by omega
      rw [e, unitsOfMag_split _ _ (by norm_num)]
      simp only [Nat.add_eq_zero_iff, OfNat.ofNat_ne_zero, and_false, if_false, Nat.add_zero]
      have : sh + 2 - 1 = sh + 1 := by omega
      rw [this, pow_succ]; ring

/-- Every magnitude is a last-place exponent and a significand. -/
theorem mag_cases (b : Nat) : ∃ sh n, b = sh * 2 ^ 52 + n ∧ (sh = 0 ∨ 2 ^ 52 ≤ n) ∧ n < 2 ^ 53 := by
  rcases Nat.lt_or_ge b (2 ^ 53) with h | h
  · exact ⟨0, b, by omega, Or.inl rfl, h⟩
  · exact ⟨b / 2 ^ 52 - 1, b % 2 ^ 52 + 2 ^ 52, by omega, Or.inr (by omega), by omega⟩

theorem unitsOfMag_succ_gt (b : Nat) : unitsOfMag b < unitsOfMag (b + 1) := by
  obtain ⟨sh, n, rfl, h, hn⟩ := mag_cases b
  have e : sh * 2 ^ 52 + n + 1 = sh * 2 ^ 52 + (n + 1) := by omega
  rw [e, unitsOfMag_pack sh n h hn.le, unitsOfMag_pack sh (n + 1) (by omega) (by omega)]
  exact Nat.mul_lt_mul_of_pos_right (by omega) (by positivity)

theorem unitsOfMag_strictMono : StrictMono unitsOfMag := strictMono_nat_of_lt_succ unitsOfMag_succ_gt

/-- The exponent of the last place of a quotient. -/
theorem log2_sub_spec (q : Nat) :
    (q.log2 - 52 = 0 → q < 2 ^ 53) ∧ (q.log2 - 52 ≠ 0 → 2 ^ 52 * 2 ^ (q.log2 - 52) ≤ q ∧
      q < 2 ^ 53 * 2 ^ (q.log2 - 52)) := by
  rcases Nat.eq_zero_or_pos q with rfl | hq
  · simp
  · have h1 : 2 ^ q.log2 ≤ q := Nat.log2_self_le (by omega)
    have h2 : q < 2 ^ (q.log2 + 1) := Nat.lt_log2_self
    constructor
    · intro h
      exact lt_of_lt_of_le h2 (Nat.pow_le_pow_right (by omega) (by omega))
    · intro h
      rw [← pow_add, ← pow_add]
      constructor
      · convert h1 using 2; omega
      · convert h2 using 2; omega

theorem roundUnits_spec (num den : Nat) (hd : 0 < den) :
    ∃ sh n, roundUnits num den = sh * 2 ^ 52 + n ∧ (sh = 0 ∨ 2 ^ 52 ≤ n) ∧ n ≤ 2 ^ 53 ∧
      2 * num ≤ (2 * n + 1) * (den * 2 ^ sh) ∧ (2 * n) * (den * 2 ^ sh) ≤ 2 * num + den * 2 ^ sh ∧
      ((2 * num = (2 * n + 1) * (den * 2 ^ sh) ∨ (2 * n) * (den * 2 ^ sh) = 2 * num + den * 2 ^ sh) → n % 2 = 0) ∧
      (sh ≠ 0 → 2 ^ 52 * (den * 2 ^ sh) ≤ num) := by
  obtain ⟨h0, h1⟩ := log2_sub_spec (num / den)
  refine ⟨(num / den).log2 - 52, _, rfl, ?_⟩
  generalize hsh : (num / den).log2 - 52 = sh at *
  have hd' : 0 < den * 2 ^ sh := by positivity
  have hq : num / (den * 2 ^ sh) = num / den / 2 ^ sh := (Nat.div_div_eq_div_mul _ _ _).symm
  have hdm := Nat.div_add_mod num (den * 2 ^ sh)
  have hr := Nat.mod_lt num hd'
  have hqlt : num / (den * 2 ^ sh) < 2 ^ 53 := by
    rw [hq]
    rcases Nat.eq_zero_or_pos sh with h | h
    · subst h; simpa using h0 rfl
    · exact Nat.div_lt_of_lt_mul (by have := (h1 (by omega)).2; linarith)
  have hqge : sh ≠ 0 → 2 ^ 52 ≤ num / (den * 2 ^ sh) := by
    intro h
    rw [hq, Nat.le_div_iff_mul_le (by positivity)]
    exact (h1 h).1
  generalize num / (den * 2 ^ sh) = q at *
  generalize num % (den * 2 ^ sh) = r at *
  generalize den * 2 ^ sh = d at *
  have hlow : sh ≠ 0 → 2 ^ 52 * d ≤ num := fun h => by
    have := Nat.mul_le_mul_right d (hqge h)
    nlinarith
  subst hdm
  split_ifs with hc
  · refine ⟨?_, by omega, ?_, ?_, ?_, hlow⟩
    · rcases Nat.eq_zero_or_pos sh with h | h
      · exact Or.inl h
      · right; have := hqge (by omega); omega
    · nlinarith
    · rcases hc with h | h <;> nlinarith
    · intro h
      have : d = 2 * r := by
        rcases h with h | h <;> rcases hc with h' | h' <;> nlinarith
      rcases hc with h' | h' <;> omega
  · push Not at hc
    refine ⟨?_, by omega, ?_, ?_, ?_, hlow⟩
    · rcases Nat.eq_zero_or_pos sh with h | h
      · exact Or.inl h
      · right; have := hqge (by omega); omega
    · nlinarith [hc.1]
    · nlinarith
    · intro h
      have : d = 2 * r := by
        rcases h with h | h <;> nlinarith [hc.1]
      have := hc.2 this.symm
      omega

/-- `roundUnits` gives the nearest magnitude, and the even one of two equally near. -/
theorem roundUnits_nearest (num den : Nat) (hd : 0 < den) (c : Nat) :
    ((num : Int) - den * unitsOfMag (roundUnits num den)).natAbs ≤ ((num : Int) - den * unitsOfMag c).natAbs ∧
    (c ≠ roundUnits num den →
      ((num : Int) - den * unitsOfMag (roundUnits num den)).natAbs = ((num : Int) - den * unitsOfMag c).natAbs →
      roundUnits num den % 2 = 0) := by
  obtain ⟨sh, n, hb, hn, hn2, hup, hlo, htie, hlow⟩ := roundUnits_spec num den hd
  have hU := unitsOfMag_pack sh n hn hn2
  rw [hb, hU]
  have hpar : (sh * 2 ^ 52 + n) % 2 = n % 2 := by omega
  rw [hpar]
  have hd' : 0 < den * 2 ^ sh := by positivity
  have hUb : den * (n * 2 ^ sh) = n * (den * 2 ^ sh) := by ring
  rcases Nat.lt_trichotomy c (sh * 2 ^ 52 + n) with hc | hc | hc
  · -- below
    have hcb : unitsOfMag c ≤ unitsOfMag (sh * 2 ^ 52 + n - 1) := unitsOfMag_strictMono.monotone (by omega)
    have hlt : unitsOfMag c < unitsOfMag (sh * 2 ^ 52 + n) := unitsOfMag_strictMono hc
    rw [hU] at hlt
    by_cases hs : sh ≠ 0 ∧ n = 2 ^ 52
    · have h1 := hlow hs.1
      rw [← hs.2] at h1
      have h2 : den * unitsOfMag c < n * (den * 2 ^ sh) := by
        rw [← hUb]; exact Nat.mul_lt_mul_of_pos_left hlt hd
      generalize n * (den * 2 ^ sh) = B at *
      have : ((den : Int) * ((n * 2 ^ sh : Nat) : Int)) = (B : Int) := by exact_mod_cast hUb
      rw [this]
      have h3 : ((den : Int) * (unitsOfMag c : Int)) = ((den * unitsOfMag c : Nat) : Int) := by push_cast; ring
      rw [h3]
      generalize den * unitsOfMag c = C at *
      constructor
      · omega
      · intro _ h; omega
    · have h1 : unitsOfMag (sh * 2 ^ 52 + n - 1) = (n - 1) * 2 ^ sh := by
        have hn1 : 1 ≤ n := by
          rcases hn with h | h
          · subst h; omega
          · exact le_trans (by norm_num) h
        rw [show sh * 2 ^ 52 + n - 1 = sh * 2 ^ 52 + (n - 1) by omega]
        exact unitsOfMag_pack sh (n - 1) (by omega) (by omega)
      rw [h1] at hcb
      have hn1 : 1 ≤ n := by
        rcases Nat.eq_zero_or_pos n with h | h
        · subst h; simp at hlt
        · exact h
      have h2 : den * unitsOfMag c ≤ (n - 1) * (den * 2 ^ sh) := by
        calc den * unitsOfMag c ≤ den * ((n - 1) * 2 ^ sh) := Nat.mul_le_mul_left _ hcb
          _ = _ := by ring
      have hB : n * (den * 2 ^ sh) = (n - 1) * (den * 2 ^ sh) + den * 2 ^ sh := by
        obtain ⟨m, rfl⟩ : ∃ m, n = m + 1 := ⟨n - 1, by omega⟩
        simp only [Nat.add_sub_cancel]; ring
      have hup' : 2 * num ≤ 2 * (n * (den * 2 ^ sh)) + den * 2 ^ sh := by nlinarith
      have hlo' : 2 * (n * (den * 2 ^ sh)) ≤ 2 * num + den * 2 ^ sh := by nlinarith
      have htie' : (2 * num + den * 2 ^ sh = 2 * (n * (den * 2 ^ sh))) → n % 2 = 0 := fun h => htie (Or.inr (by nlinarith))
      have : ((den : Int) * ((n * 2 ^ sh : Nat) : Int)) = ((n * (den * 2 ^ sh) : Nat) : Int) := by exact_mod_cast hUb
      rw [this]
      have h3 : ((den : Int) * (unitsOfMag c : Int)) = ((den * unitsOfMag c : Nat) : Int) := by push_cast; ring
      rw [h3]
      generalize den * unitsOfMag c = C at *
      generalize n * (den * 2 ^ sh) = B at *
      generalize (n - 1) * (den * 2 ^ sh) = B' at *
      generalize den * 2 ^ sh = d at *
      constructor
      · omega
      · intro _ h; apply htie'; omega
  · subst hc
    rw [hU]
    exact ⟨le_refl _, fun h => absurd rfl h⟩
  · -- above
    have hcb : unitsOfMag (sh * 2 ^ 52 + n + 1) ≤ unitsOfMag c := unitsOfMag_strictMono.monotone (by omega)
    have h1 : (n + 1) * 2 ^ sh ≤ unitsOfMag (sh * 2 ^ 52 + n + 1) := by
      rcases Nat.lt_or_ge n (2 ^ 53) with h | h
      · rw [show sh * 2 ^ 52 + n + 1 = sh * 2 ^ 52 + (n + 1) by omega,
          unitsOfMag_pack sh (n + 1) (by omega) (by omega)]
      · have : n = 2 ^ 53 := by omega
        rw [show sh * 2 ^ 52 + n + 1 = (sh + 1) * 2 ^ 52 + (2 ^ 52 + 1) by omega,
          unitsOfMag_pack (sh + 1) (2 ^ 52 + 1) (by omega) (by omega), pow_succ 2 sh, this]
        generalize 2 ^ sh = x
        omega
    have h2 : (n + 1) * (den * 2 ^ sh) ≤ den * unitsOfMag c := by
      calc (n + 1) * (den * 2 ^ sh) = den * ((n + 1) * 2 ^ sh) := by ring
        _ ≤ _ := Nat.mul_le_mul_left _ (h1.trans hcb)
    have hB : (n + 1) * (den * 2 ^ sh) = n * (den * 2 ^ sh) + den * 2 ^ sh := by ring
    have hup' : 2 * num ≤ 2 * (n * (den * 2 ^ sh)) + den * 2 ^ sh := by nlinarith
    have hlo' : 2 * (n * (den * 2 ^ sh)) ≤ 2 * num + den * 2 ^ sh := by nlinarith
    have htie' : (2 * num = 2 * (n * (den * 2 ^ sh)) + den * 2 ^ sh) → n % 2 = 0 := fun h => htie (Or.inl (by nlinarith))
    have : ((den : Int) * ((n * 2 ^ sh : Nat) : Int)) = ((n * (den * 2 ^ sh) : Nat) : Int) := by exact_mod_cast hUb
    rw [this]
    have h3 : ((den : Int) * (unitsOfMag c : Int)) = ((den * unitsOfMag c : Nat) : Int) := by push_cast; ring
    rw [h3]
    generalize den * unitsOfMag c = C at *
    generalize n * (den * 2 ^ sh) = B at *
    generalize den * 2 ^ sh = d at *
    constructor
    · omega
    · intro _ h; apply htie'; omega

/-- Rounding keeps the order of quotients. -/
theorem roundUnits_mono {num den num' den' : Nat} (hd : 0 < den) (hd' : 0 < den')
    (h : num * den' ≤ num' * den) : roundUnits num den ≤ roundUnits num' den' := by
  by_contra hlt
  push Not at hlt
  obtain ⟨h1, t1⟩ := roundUnits_nearest num den hd (roundUnits num' den')
  obtain ⟨h2, t2⟩ := roundUnits_nearest num' den' hd' (roundUnits num den)
  have hU := unitsOfMag_strictMono hlt
  have hs1 := unitsOfMag_succ_gt (roundUnits num' den')
  obtain ⟨h3, -⟩ := roundUnits_nearest num den hd (roundUnits num' den' + 1)
  generalize hb : roundUnits num den = b at *
  generalize hb' : roundUnits num' den' = b' at *
  have hU1 : unitsOfMag (b' + 1) ≤ unitsOfMag b := unitsOfMag_strictMono.monotone (by omega)
  zify at h hd hd' hU hs1 hU1
  have p : (2 * num : Int) ≥ den * (unitsOfMag b + unitsOfMag b') := by
    have : (den : Int) * unitsOfMag b' < den * unitsOfMag b := by nlinarith
    have e : (den : Int) * (unitsOfMag b + unitsOfMag b') = den * unitsOfMag b + den * unitsOfMag b' := by ring
    rw [e]; omega
  have p' : (2 * num' : Int) ≤ den' * (unitsOfMag b + unitsOfMag b') := by
    have : (den' : Int) * unitsOfMag b' < den' * unitsOfMag b := by nlinarith
    have e : (den' : Int) * (unitsOfMag b + unitsOfMag b') = den' * unitsOfMag b + den' * unitsOfMag b' := by ring
    rw [e]; omega
  have q : (2 * num : Int) = den * (unitsOfMag b + unitsOfMag b') := by nlinarith
  have q' : (2 * num' : Int) = den' * (unitsOfMag b + unitsOfMag b') := by nlinarith
  have lt1 : (den : Int) * unitsOfMag b' < den * unitsOfMag b := by nlinarith
  have lt1' : (den' : Int) * unitsOfMag b' < den' * unitsOfMag b := by nlinarith
  have e1 : b % 2 = 0 := t1 (by omega) (by rw [mul_add] at q; omega)
  have e2 : b' % 2 = 0 := t2 (by omega) (by rw [mul_add] at q'; omega)
  have : unitsOfMag (b' + 1) < unitsOfMag b := unitsOfMag_strictMono (by omega)
  have l1 : (den : Int) * unitsOfMag (b' + 1) < den * unitsOfMag b := by
    zify at this; nlinarith
  have l2 : (den : Int) * unitsOfMag b' < den * unitsOfMag (b' + 1) := by nlinarith
  rw [mul_add] at q
  omega

/-- A value that is representable rounds to itself. -/
theorem roundUnits_unitsOfMag (b den : Nat) (hd : 0 < den) : roundUnits (unitsOfMag b * den) den = b := by
  by_contra h
  obtain ⟨h1, -⟩ := roundUnits_nearest (unitsOfMag b * den) den hd b
  have h2 : unitsOfMag (roundUnits (unitsOfMag b * den) den) = unitsOfMag b := by
    have e : (((unitsOfMag b * den : Nat) : Int) - den * unitsOfMag b) = 0 := by push_cast; ring
    rw [e] at h1
    have h3 : (((unitsOfMag b * den : Nat) : Int) - den * unitsOfMag (roundUnits (unitsOfMag b * den) den)) = 0 := by
      simpa using h1
    push_cast at h3
    have : (den : Int) * (unitsOfMag b - unitsOfMag (roundUnits (unitsOfMag b * den) den)) = 0 := by linarith
    rcases mul_eq_zero.mp this with h | h
    · omega
    · omega
  exact h (unitsOfMag_strictMono.injective h2)

/-! ## Rounding with the largest finite value -/

theorem roundMag_le (num den : Nat) : roundMag num den ≤ infMag := Nat.min_le_right _ _

theorem roundMag_lt_pow (num den : Nat) : roundMag num den < 2 ^ 63 :=
  lt_of_le_of_lt (roundMag_le _ _) (by unfold infMag; norm_num)

theorem roundMag_mono {num den num' den' : Nat} (hd : 0 < den) (hd' : 0 < den')
    (h : num * den' ≤ num' * den) : roundMag num den ≤ roundMag num' den' :=
  min_le_min_right _ (roundUnits_mono hd hd' h)

theorem roundMag_unitsOfMag (b den : Nat) (hd : 0 < den) (hb : b ≤ infMag) :
    roundMag (unitsOfMag b * den) den = b := by
  rw [roundMag, roundUnits_unitsOfMag b den hd, min_eq_left hb]

theorem roundMag_unitsOfMag_one (b : Nat) (hb : b ≤ infMag) : roundMag (unitsOfMag b) 1 = b := by
  simpa using roundMag_unitsOfMag b 1 one_pos hb

/-- A finite result is the nearest one, ties to even (R12). -/
theorem roundMag_nearestEven (num den : Nat) (hd : 0 < den) (h : roundMag num den < infMag) :
    NearestEven num den (roundMag num den) := by
  have e : roundMag num den = roundUnits num den := by
    unfold roundMag at *; omega
  exact ⟨h, fun c _ => e ▸ roundUnits_nearest num den hd c⟩

/-! ## Encodings -/

theorem magBits_lt (x : Binary64) : magBits x < 2 ^ 63 := Nat.mod_lt _ (by norm_num)

theorem sign_eq (x : Binary64) : sign x = decide (2 ^ 63 ≤ x.toNat) := by
  rw [sign, BitVec.msb_eq_decide]

theorem toNat_eq (x : Binary64) : x.toNat = (if sign x then 2 ^ 63 else 0) + magBits x := by
  have := x.isLt
  rw [sign_eq, magBits]
  by_cases h : 2 ^ 63 ≤ x.toNat
  · simp only [h, decide_true, if_true]; omega
  · simp only [h, decide_false, Bool.false_eq_true, if_false]; omega

theorem toNat_pack (neg : Bool) (m : Nat) (h : m < 2 ^ 63) :
    (pack neg m).toNat = (if neg then 2 ^ 63 else 0) + m := by
  cases neg <;> simp only [pack, BitVec.toNat_ofNat, if_true, Bool.false_eq_true, if_false] <;> omega

@[simp] theorem magBits_pack (neg : Bool) (m : Nat) (h : m < 2 ^ 63) : magBits (pack neg m) = m := by
  rw [magBits, toNat_pack neg m h]; cases neg <;> simp only [if_true, Bool.false_eq_true, if_false] <;> omega

@[simp] theorem sign_pack (neg : Bool) (m : Nat) (h : m < 2 ^ 63) : sign (pack neg m) = neg := by
  rw [sign_eq, toNat_pack neg m h]
  cases neg <;> simp only [if_true, Bool.false_eq_true, if_false] <;> first | (apply decide_eq_true; omega) | (apply decide_eq_false; omega)

theorem pack_sign_magBits (x : Binary64) : pack (sign x) (magBits x) = x := by
  apply BitVec.eq_of_toNat_eq
  rw [toNat_pack _ _ (magBits_lt x), ← toNat_eq]

theorem isFinite_iff (x : Binary64) : isFinite x = true ↔ magBits x < infMag := by
  have := magBits_lt x
  unfold isFinite expField infMag
  rw [bne_iff_ne]
  omega

theorem isNaN_iff (x : Binary64) : isNaN x = true ↔ infMag < magBits x := by
  have := magBits_lt x
  unfold isNaN expField fracField infMag
  rw [Bool.and_eq_true, beq_iff_eq, bne_iff_ne]
  omega

theorem isInf_iff (x : Binary64) : isInf x = true ↔ magBits x = infMag := by
  have := magBits_lt x
  unfold isInf expField fracField infMag
  rw [Bool.and_eq_true, beq_iff_eq, beq_iff_eq]
  omega

theorem isNaN_of_isFinite {x : Binary64} (h : isFinite x = true) : isNaN x = false := by
  rw [isFinite_iff] at h
  rw [Bool.eq_false_iff, Ne, isNaN_iff]; omega

theorem isInf_of_isFinite {x : Binary64} (h : isFinite x = true) : isInf x = false := by
  rw [isFinite_iff] at h
  rw [Bool.eq_false_iff, Ne, isInf_iff]; omega

/-! ## Order -/

theorem unitsOfMag_zero : unitsOfMag 0 = 0 := by decide +kernel

theorem sUnits_lt_iff (a b : Binary64) : sUnits a < sUnits b ↔ orderKey a < orderKey b := by
  have m := unitsOfMag_strictMono
  have z : ∀ x, unitsOfMag x = 0 ↔ x = 0 := fun x => by
    rw [← unitsOfMag_zero]; exact m.injective.eq_iff
  have l : ∀ x y, unitsOfMag x < unitsOfMag y ↔ x < y := fun x y => m.lt_iff_lt
  have za := z (magBits a); have zb := z (magBits b)
  have lab := l (magBits a) (magBits b); have lba := l (magBits b) (magBits a)
  unfold sUnits orderKey units
  cases sign a <;> cases sign b <;> simp only [if_true, Bool.false_eq_true, if_false] <;> omega

theorem lt_iff (a b : Binary64) (ha : isFinite a = true) (hb : isFinite b = true) :
    lt a b = true ↔ sUnits a < sUnits b := by
  simp only [lt, isNaN_of_isFinite ha, isNaN_of_isFinite hb, Bool.not_false, Bool.true_and, decide_eq_true_eq, sUnits_lt_iff]

theorem ge_iff (a b : Binary64) (ha : isFinite a = true) (hb : isFinite b = true) :
    ge a b = true ↔ sUnits b ≤ sUnits a := by
  have := sUnits_lt_iff a b
  simp only [ge, isNaN_of_isFinite ha, isNaN_of_isFinite hb, Bool.not_false, Bool.true_and, decide_eq_true_eq]
  omega

theorem eq_iff (a b : Binary64) (ha : isFinite a = true) (hb : isFinite b = true) :
    eq a b = true ↔ sUnits a = sUnits b := by
  have := sUnits_lt_iff a b
  have := sUnits_lt_iff b a
  simp only [eq, isNaN_of_isFinite ha, isNaN_of_isFinite hb, Bool.not_false, Bool.true_and, decide_eq_true_eq]
  omega

/-! ## The remainder is exact (R13) -/

/-- A multiple of `2^k` below `2^53 * 2^k` is a binary64 magnitude. -/
theorem exists_mag (k m : Nat) (h : m < 2 ^ 53) : ∃ b, unitsOfMag b = m * 2 ^ k := by
  induction k generalizing m with
  | zero => exact ⟨0 * 2 ^ 52 + m, by rw [unitsOfMag_pack 0 m (Or.inl rfl) h.le]⟩
  | succ k ih =>
    rcases Nat.lt_or_ge m (2 ^ 52) with hm | hm
    · obtain ⟨b, hb⟩ := ih (2 * m) (by omega)
      exact ⟨b, by rw [hb, pow_succ]; ring⟩
    · exact ⟨(k + 1) * 2 ^ 52 + m, unitsOfMag_pack (k + 1) m (Or.inr hm) h.le⟩

/-- The remainder of two magnitudes is a magnitude no larger than either. -/
theorem exists_mag_mod (a b : Nat) (hb : 0 < b) :
    ∃ r, unitsOfMag r = unitsOfMag a % unitsOfMag b ∧ r < b ∧ r ≤ a := by
  have hUb : 0 < unitsOfMag b := by
    rw [← unitsOfMag_zero]; exact unitsOfMag_strictMono hb
  have key : ∃ r, unitsOfMag r = unitsOfMag a % unitsOfMag b := by
    rcases Nat.lt_or_ge a b with h | h
    · exact ⟨a, (Nat.mod_eq_of_lt (unitsOfMag_strictMono h)).symm⟩
    · obtain ⟨s, n, rfl, hn, hn2⟩ := mag_cases a
      obtain ⟨s', n', rfl, hn', hn2'⟩ := mag_cases b
      have hs : s' ≤ s := by omega
      rw [unitsOfMag_pack s n hn hn2.le, unitsOfMag_pack s' n' hn' hn2'.le]
      have e : n * 2 ^ s = n * 2 ^ (s - s') * 2 ^ s' := by
        rw [mul_assoc, ← pow_add, Nat.sub_add_cancel hs]
      rw [e, Nat.mul_mod_mul_right]
      refine exists_mag s' _ (lt_trans (Nat.mod_lt _ ?_) hn2')
      rw [unitsOfMag_pack s' n' hn' hn2'.le] at hUb
      exact Nat.pos_of_mul_pos_right hUb
  obtain ⟨r, hr⟩ := key
  refine ⟨r, hr, ?_, ?_⟩
  · rw [← unitsOfMag_strictMono.lt_iff_lt, hr]; exact Nat.mod_lt _ hUb
  · rw [← unitsOfMag_strictMono.le_iff_le, hr]; exact Nat.mod_le _ _

/-- `f64_rem` of finite operands is exact, finite, and has the sign of the first (R13). -/
theorem rem_spec (x y : Binary64) (hx : isFinite x = true) (hy : isFinite y = true) (h0 : magBits y ≠ 0) :
    isFinite (rem x y) = true ∧ units (rem x y) = units x % units y ∧ sign (rem x y) = sign x ∧
      magBits (rem x y) < magBits y := by
  obtain ⟨r, hr, hlt, hle⟩ := exists_mag_mod (magBits x) (magBits y) (by omega)
  have hfx := (isFinite_iff x).1 hx
  have e : rem x y = pack (sign x) r := by
    have : roundMag (units x % units y) 1 = r := by
      rw [units, units, ← hr]; exact roundMag_unitsOfMag_one r (by omega)
    simp [rem, isNaN_of_isFinite hx, isNaN_of_isFinite hy, isInf_of_isFinite hx, isInf_of_isFinite hy, h0, this]
  have hr63 : r < 2 ^ 63 := lt_of_le_of_lt hle (magBits_lt x)
  rw [e, units, sign_pack _ _ hr63, magBits_pack _ _ hr63, isFinite_iff, magBits_pack _ _ hr63]
  exact ⟨by omega, by rw [hr]; rfl, rfl, hlt⟩

/-! ## Operations on finite operands -/

theorem units_eq (x : Binary64) : units x = unitsOfMag (magBits x) := rfl

theorem mul_finite (a b : Binary64) (ha : isFinite a = true) (hb : isFinite b = true) :
    mul a b = pack (sign a != sign b) (roundMag (units a * units b) unitsPerOne) := by
  simp [mul, isNaN_of_isFinite ha, isNaN_of_isFinite hb, isInf_of_isFinite ha, isInf_of_isFinite hb]

theorem div_finite (a b : Binary64) (ha : isFinite a = true) (hb : isFinite b = true) (h0 : magBits b ≠ 0) :
    div a b = pack (sign a != sign b) (roundMag (units a * unitsPerOne) (units b)) := by
  simp [div, isNaN_of_isFinite ha, isNaN_of_isFinite hb, isInf_of_isFinite ha, isInf_of_isFinite hb, h0]

theorem add_finite (a b : Binary64) (ha : isFinite a = true) (hb : isFinite b = true) (h : sUnits a + sUnits b ≠ 0) :
    add a b = pack (decide (sUnits a + sUnits b < 0)) (roundMag (sUnits a + sUnits b).natAbs 1) := by
  simp [add, isNaN_of_isFinite ha, isNaN_of_isFinite hb, isInf_of_isFinite ha, isInf_of_isFinite hb, h]

theorem unitsPerOne_pos : 0 < unitsPerOne := by unfold unitsPerOne; positivity

/-- A product with a factor of magnitude at most 1 is no larger than the other factor. -/
theorem magBits_mul_le (a b : Binary64) (ha : isFinite a = true) (hb : isFinite b = true)
    (h1 : units b ≤ unitsPerOne) : magBits (mul a b) ≤ magBits a := by
  rw [mul_finite a b ha hb, magBits_pack _ _ (roundMag_lt_pow _ _)]
  have hfa := (isFinite_iff a).1 ha
  calc roundMag (units a * units b) unitsPerOne
      ≤ roundMag (units a * unitsPerOne) unitsPerOne :=
        roundMag_mono unitsPerOne_pos unitsPerOne_pos
          (Nat.mul_le_mul_right _ (Nat.mul_le_mul_left _ h1))
    _ = magBits a := roundMag_unitsOfMag _ _ unitsPerOne_pos hfa.le

/-! ## Integers -/

/-- An integer below `2^53` in magnitude converts exactly (R12). -/
theorem ofInt_spec (n : Int) (h : n.natAbs < 2 ^ 53) :
    isFinite (ofInt n) = true ∧ sign (ofInt n) = decide (n < 0) ∧ units (ofInt n) = n.natAbs * unitsPerOne := by
  obtain ⟨b, hb⟩ := exists_mag 1074 n.natAbs h
  have hb' : b < infMag := by
    rw [← unitsOfMag_strictMono.lt_iff_lt, hb]
    have : unitsOfMag infMag = 2 ^ 52 * 2 ^ 2046 := by
      have := unitsOfMag_split 2047 0 (by norm_num)
      rw [if_neg (by norm_num), Nat.add_zero, Nat.add_zero] at this
      rw [infMag, this]
    rw [this]
    calc n.natAbs * 2 ^ 1074 < 2 ^ 53 * 2 ^ 1074 := Nat.mul_lt_mul_of_pos_right h (by positivity)
      _ ≤ _ := by rw [← pow_add, ← pow_add]; exact Nat.pow_le_pow_right (n := 2) (by omega) (by omega)
  have e : ofInt n = pack (decide (n < 0)) b := by
    rw [ofInt, unitsPerOne, ← hb, roundMag_unitsOfMag_one b hb'.le]
  have h63 : b < 2 ^ 63 := lt_trans hb' (by unfold infMag; norm_num)
  rw [e, isFinite_iff, sign_pack _ _ h63, units, magBits_pack _ _ h63, hb]
  exact ⟨hb', rfl, rfl⟩

theorem truncInt_natAbs (x : Binary64) : (truncInt x).natAbs = units x / unitsPerOne := by
  unfold truncInt
  generalize units x / unitsPerOne = n
  cases sign x <;> simp

/-- `A * s` discarded to an integer lies in `-A .. A` when `s` is within `-1.0 .. 1.0`. -/
theorem truncInt_mul_ofInt (A : Nat) (s : Binary64) (hA : A < 2 ^ 53) (hs : isFinite s = true)
    (h1 : units s ≤ unitsPerOne) : (truncInt (mul (ofInt A) s)).natAbs ≤ A := by
  obtain ⟨hf, -, hu⟩ := ofInt_spec A (by simpa using hA)
  rw [truncInt_natAbs]
  have h2 := magBits_mul_le (ofInt A) s hf hs h1
  have h3 : units (mul (ofInt A) s) ≤ units (ofInt A) := unitsOfMag_strictMono.monotone h2
  rw [hu] at h3
  exact Nat.div_le_of_le_mul (by simpa [Nat.mul_comm] using h3)

/-! ## Overflow, and the sign of a quotient -/

theorem unitsOfMag_infMag_pred : unitsOfMag (infMag - 1) = 2 ^ 2098 - 2 ^ 2045 := by decide +kernel

theorem unitsOfMag_infMag : unitsOfMag infMag = 2 ^ 2098 := by decide +kernel

/-- The rounded value is finite exactly below the largest finite value plus half its last place (R12). -/
theorem roundMag_lt_infMag_iff (num den : Nat) (hd : 0 < den) :
    roundMag num den < infMag ↔ num < den * overflowUnits := by
  have hov : 2 * overflowUnits = unitsOfMag (infMag - 1) + unitsOfMag infMag := by
    rw [unitsOfMag_infMag_pred, unitsOfMag_infMag]; decide +kernel
  have hV : roundUnits overflowUnits 1 = infMag := by decide +kernel
  have hlt : unitsOfMag (infMag - 1) < unitsOfMag infMag := unitsOfMag_strictMono (by unfold infMag; norm_num)
  have e : roundMag num den < infMag ↔ roundUnits num den < infMag := by unfold roundMag; omega
  rw [e]
  constructor
  · intro h
    by_contra hc
    push Not at hc
    have := roundUnits_mono (num := overflowUnits) (den := 1) (num' := num) one_pos hd (by rw [Nat.mul_one, Nat.mul_comm]; exact hc)
    omega
  · intro h
    by_contra hc
    push Not at hc
    have hU := unitsOfMag_strictMono.monotone hc
    obtain ⟨h1, -⟩ := roundUnits_nearest num den hd (infMag - 1)
    have l1 := Nat.mul_le_mul_left den hU
    have l2 : den * unitsOfMag (infMag - 1) < den * unitsOfMag infMag := Nat.mul_lt_mul_of_pos_left hlt hd
    have l3 : 2 * num < den * unitsOfMag (infMag - 1) + den * unitsOfMag infMag := by
      rw [← Nat.mul_add, ← hov]
      calc 2 * num < 2 * (den * overflowUnits) := by omega
        _ = _ := by ring
    zify at l1 l2 l3
    generalize (den : Int) * unitsOfMag (roundUnits num den) = B at *
    generalize (den : Int) * unitsOfMag infMag = I at *
    generalize (den : Int) * unitsOfMag (infMag - 1) = P at *
    omega

/-- The sign of a quotient by a finite value that is not zero. -/
theorem sign_div {a b : Binary64} (ha : isNaN a = false) (hb : isFinite b = true) (h0 : magBits b ≠ 0) :
    sign (div a b) = (sign a != sign b) := by
  have hinf : infMag < 2 ^ 63 := by decide +kernel
  have e : div a b = pack (sign a != sign b)
      (if isInf a = true then infMag else roundMag (units a * unitsPerOne) (units b)) := by
    simp only [div, ha, isNaN_of_isFinite hb, isInf_of_isFinite hb, h0, Bool.or_self, Bool.false_eq_true, if_false]
    split_ifs <;> rfl
  rw [e, sign_pack]
  split_ifs
  · exact hinf
  · exact roundMag_lt_pow _ _

end Sys2Proof.F64
end

