-- ==== Sys2Proof/Laws/Memory.lean ====
section
/-! SUPPORT. What the memory operations do: reads after writes, the canonical form kept, a frame's four bytes, a
buffer filled from the front. -/

namespace Sys2Proof.Machine

/-! ## One byte -/

@[simp] theorem Memory.read_nil (a : Nat) : Memory.read [] a = none := rfl

theorem Memory.read_write_same (m : Memory) (a : Nat) (v : Byte) : (Memory.write m a v).read a = some v := by
  induction m with
  | nil => simp [Memory.write, Memory.read]
  | cons c rest ih =>
    simp only [Memory.write]
    split_ifs with h1 h2
    · simp [Memory.read]
    · simp [Memory.read]
    · have : c.1 ≠ a := by omega
      simpa [Memory.read, this] using ih

theorem Memory.read_write_other (m : Memory) {a b : Nat} (v : Byte) (h : b ≠ a) :
    (Memory.write m a v).read b = m.read b := by
  induction m with
  | nil => simp [Memory.write, Memory.read, h.symm, Memory.unlisted]
  | cons c rest ih =>
    simp only [Memory.write]
    split_ifs with h1 h2
    · simp [Memory.read, h.symm]
    · simp [Memory.read, h.symm, ← h2]
    · simp [Memory.read, ih]

theorem Memory.mem_write {m : Memory} {a : Nat} {v : Byte} {c : Host.Cell} (h : c ∈ Memory.write m a v) :
    c = (a, v) ∨ c ∈ m := by
  induction m with
  | nil => simpa [Memory.write] using h
  | cons d rest ih =>
    simp only [Memory.write] at h
    split_ifs at h with h1 h2 <;> simp only [List.mem_cons] at h ⊢
    · tauto
    · tauto
    · rcases h with h | h
      · tauto
      · rcases ih h with h | h <;> tauto

theorem Memory.write_wf {m : Memory} (h : Memory.wf m) (a : Nat) (v : Byte) : Memory.wf (Memory.write m a v) := by
  induction m with
  | nil => simp [Memory.write, Memory.wf]
  | cons c rest ih =>
    have hc := List.pairwise_cons.1 h
    simp only [Memory.write]
    split_ifs with h1 h2
    · refine List.pairwise_cons.2 ⟨fun d hd => ?_, h⟩
      rcases List.mem_cons.1 hd with rfl | hd
      · exact h1
      · exact lt_trans h1 (hc.1 d hd)
    · exact List.pairwise_cons.2 ⟨fun d hd => by simpa [h2] using hc.1 d hd, hc.2⟩
    · refine List.pairwise_cons.2 ⟨fun d hd => ?_, ih hc.2⟩
      rcases Memory.mem_write hd with rfl | hd
      · show c.1 < a; omega
      · exact hc.1 d hd

/-- A byte written above every listed address goes to the end. -/
theorem Memory.write_append {m : Memory} {a : Nat} (h : ∀ c ∈ m, c.1 < a) (v : Byte) :
    Memory.write m a v = m ++ [(a, v)] := by
  induction m with
  | nil => rfl
  | cons c rest ih =>
    have h1 := h c (by simp)
    rw [Memory.write, if_neg (by omega), if_neg (by omega), ih fun d hd => h d (by simp [hd])]
    rfl

/-! ## A frame -/

/-- The two bytes of a sample. -/
theorem littleEndian_two (v : Int) : littleEndian 2 v = [BitVec.ofInt 8 v, BitVec.ofInt 8 (v / 256)] := rfl

/-- The memory after the four bytes of a frame (R52). -/
def Memory.putFrame (m : Memory) (a : Nat) (v : Int) : Memory :=
  (((m.write a (BitVec.ofInt 8 v)).write (a + 1) (BitVec.ofInt 8 (v / 256))).write (a + 2) (BitVec.ofInt 8 v)).write
    (a + 3) (BitVec.ofInt 8 (v / 256))

/-- Everything a frame write can do: the four bytes, where they fit; nothing, where they do not. -/
theorem Buffer.writeFrame_eq (b : Buffer) (a : Nat) (v : Int) :
    b.writeFrame a v =
      if a + 4 ≤ b.len then some { len := b.len, cells := Memory.putFrame b.cells a v } else none := by
  simp only [Buffer.writeFrame, Buffer.memWrite, Config.sampleBytes, littleEndian_two, Memory.writeBytes]
  by_cases h : a + 2 ≤ b.len
  · simp only [h, if_true, Memory.putFrame]
  · have : ¬ a + 4 ≤ b.len := by omega
    simp only [h, if_false, this]

theorem Memory.read_putFrame (m : Memory) (a : Nat) (v : Int) (x : Nat) :
    (Memory.putFrame m a v).read x =
      if x = a ∨ x = a + 2 then some (BitVec.ofInt 8 v)
      else if x = a + 1 ∨ x = a + 3 then some (BitVec.ofInt 8 (v / 256))
      else m.read x := by
  unfold Memory.putFrame
  by_cases h3 : x = a + 3
  · subst h3; simp [Memory.read_write_same]
  rw [Memory.read_write_other _ _ h3]
  by_cases h2 : x = a + 2
  · subst h2; simp [Memory.read_write_same]
  rw [Memory.read_write_other _ _ h2]
  by_cases h1 : x = a + 1
  · subst h1; simp [Memory.read_write_same]
  rw [Memory.read_write_other _ _ h1]
  by_cases h0 : x = a
  · subst h0; simp [Memory.read_write_same]
  rw [Memory.read_write_other _ _ h0]
  simp [h0, h1, h2, h3]

theorem Memory.putFrame_wf {m : Memory} (h : Memory.wf m) (a : Nat) (v : Int) : Memory.wf (m.putFrame a v) :=
  Memory.write_wf (Memory.write_wf (Memory.write_wf (Memory.write_wf h _ _) _ _) _ _) _ _

theorem Memory.mem_putFrame {m : Memory} {a : Nat} {v : Int} {c : Host.Cell} (h : c ∈ m.putFrame a v) :
    (a ≤ c.1 ∧ c.1 < a + 4) ∨ c ∈ m := by
  unfold Memory.putFrame at h
  rcases Memory.mem_write h with rfl | h
  · left; constructor <;> simp
  rcases Memory.mem_write h with rfl | h
  · left; constructor <;> simp
  rcases Memory.mem_write h with rfl | h
  · left; constructor <;> simp
  rcases Memory.mem_write h with rfl | h
  · left; constructor <;> simp
  exact Or.inr h

/-- A frame written at the front of the unwritten part of a buffer. -/
theorem Memory.putFrame_filled {m : Memory} {n : Nat} (h : m.map Prod.fst = List.range n) (v : Int) :
    (m.putFrame n v).map Prod.fst = List.range (n + 4) := by
  have key : ∀ (m : Memory) (k : Nat) (w : Byte), m.map Prod.fst = List.range k →
      (Memory.write m k w).map Prod.fst = List.range (k + 1) := by
    intro m k w hm
    have : ∀ c ∈ m, c.1 < k := fun c hc => by
      have : c.1 ∈ m.map Prod.fst := List.mem_map_of_mem hc
      rw [hm] at this
      exact List.mem_range.1 this
    rw [Memory.write_append this, List.map_append, hm, List.range_succ]
    rfl
  exact key _ _ _ (key _ _ _ (key _ _ _ (key _ _ _ h)))

/-! ## Zero fill -/

theorem Memory.zeroFill_filled (n : Nat) : (Memory.zeroFill n).map Prod.fst = List.range n := by
  simp [Memory.zeroFill, Function.comp_def]

/-- Addresses that rise from 0 are in canonical form and below their count. -/
theorem Buffer.wf_of_filled {b : Buffer} {n : Nat} (h : b.FilledTo n) (hn : n ≤ b.len) : b.wf := by
  constructor
  · have : (b.cells.map Prod.fst).Pairwise (· < ·) := by rw [h]; exact List.pairwise_lt_range
    exact List.pairwise_map.1 this
  · intro c hc
    have : c.1 ∈ b.cells.map Prod.fst := List.mem_map_of_mem hc
    rw [h] at this
    exact lt_of_lt_of_le (List.mem_range.1 this) hn

theorem Memory.read_of_map (f : Nat → Byte) (l : List Nat) (a : Nat) :
    Memory.read (l.map fun x => (x, f x)) a = if a ∈ l then some (f a) else none := by
  induction l with
  | nil => rfl
  | cons x rest ih =>
    simp only [List.map_cons, Memory.read]
    by_cases h : x = a
    · simp [h]
    · simp [h, ih, show ¬ a = x from Ne.symm h]

theorem Memory.read_zeroFill (n a : Nat) : (Memory.zeroFill n).read a = if a < n then some 0#8 else none := by
  rw [Memory.zeroFill, Memory.read_of_map (fun _ => 0#8)]
  simp

/-- Zero fill is what the one-byte writes of R137 leave, in any buffer that starts with nothing written. -/
theorem Memory.zeroFill_succ (n : Nat) : Memory.zeroFill (n + 1) = (Memory.zeroFill n).write n 0#8 := by
  rw [Memory.write_append, Memory.zeroFill, List.range_succ, List.map_append]
  · rfl
  · intro c hc
    simp only [Memory.zeroFill, List.mem_map, List.mem_range] at hc
    obtain ⟨x, hx, rfl⟩ := hc
    exact hx

/-- A byte below the fill of a buffer has a value; a byte above has none. -/
theorem Memory.read_isSome_iff (m : Memory) (a : Nat) : (m.read a).isSome ↔ a ∈ m.map Prod.fst := by
  induction m with
  | nil => simp
  | cons c rest ih =>
    simp only [Memory.read, List.map_cons, List.mem_cons]
    by_cases h : c.1 = a
    · simp [h]
    · simp [h, ih, show ¬ a = c.1 from Ne.symm h]

theorem Buffer.read_isSome_of_filled {b : Buffer} {n : Nat} (h : b.FilledTo n) (a : Nat) :
    (b.read a).isSome ↔ a < n := by
  rw [Buffer.read, Memory.read_isSome_iff, h, List.mem_range]

end Sys2Proof.Machine
end

