-- ==== Sys2Proof/Laws/State.lean ====
section
/-! SUPPORT. One lemma per field per register write: the field written reads as the value, every other field as
before. -/

namespace Sys2Proof.Machine

section
variable (s : State)

/-! `putWave` -/

@[simp] theorem State.putWave_wave (v : BitVec 2) : (s.putWave v).wave = v := rfl
@[simp] theorem State.putWave_freq (v : BitVec 2) : (s.putWave v).freq = s.freq := rfl
@[simp] theorem State.putWave_amp (v : BitVec 2) : (s.putWave v).amp = s.amp := rfl
@[simp] theorem State.putWave_theta (v : BitVec 2) : (s.putWave v).theta = s.theta := rfl
@[simp] theorem State.putWave_tri (v : BitVec 2) : (s.putWave v).tri = s.tri := rfl
@[simp] theorem State.putWave_saw (v : BitVec 2) : (s.putWave v).saw = s.saw := rfl
@[simp] theorem State.putWave_sqr (v : BitVec 2) : (s.putWave v).sqr = s.sqr := rfl
@[simp] theorem State.putWave_rnd (v : BitVec 2) : (s.putWave v).rnd = s.rnd := rfl
@[simp] theorem State.putWave_sample (v : BitVec 2) : (s.putWave v).sample = s.sample := rfl
@[simp] theorem State.putWave_out (v : BitVec 2) : (s.putWave v).out = s.out := rfl
@[simp] theorem State.putWave_returned (v : BitVec 2) : (s.putWave v).returned = s.returned := rfl
@[simp] theorem State.putWave_inputs (v : BitVec 2) : (s.putWave v).inputs = s.inputs := rfl

/-! `putFreq` -/

@[simp] theorem State.putFreq_wave (v : Binary64) : (s.putFreq v).wave = s.wave := rfl
@[simp] theorem State.putFreq_freq (v : Binary64) : (s.putFreq v).freq = v := rfl
@[simp] theorem State.putFreq_amp (v : Binary64) : (s.putFreq v).amp = s.amp := rfl
@[simp] theorem State.putFreq_theta (v : Binary64) : (s.putFreq v).theta = s.theta := rfl
@[simp] theorem State.putFreq_tri (v : Binary64) : (s.putFreq v).tri = s.tri := rfl
@[simp] theorem State.putFreq_saw (v : Binary64) : (s.putFreq v).saw = s.saw := rfl
@[simp] theorem State.putFreq_sqr (v : Binary64) : (s.putFreq v).sqr = s.sqr := rfl
@[simp] theorem State.putFreq_rnd (v : Binary64) : (s.putFreq v).rnd = s.rnd := rfl
@[simp] theorem State.putFreq_sample (v : Binary64) : (s.putFreq v).sample = s.sample := rfl
@[simp] theorem State.putFreq_out (v : Binary64) : (s.putFreq v).out = s.out := rfl
@[simp] theorem State.putFreq_returned (v : Binary64) : (s.putFreq v).returned = s.returned := rfl
@[simp] theorem State.putFreq_inputs (v : Binary64) : (s.putFreq v).inputs = s.inputs := rfl

/-! `putAmp` -/

@[simp] theorem State.putAmp_wave (v : BitVec 15) : (s.putAmp v).wave = s.wave := rfl
@[simp] theorem State.putAmp_freq (v : BitVec 15) : (s.putAmp v).freq = s.freq := rfl
@[simp] theorem State.putAmp_amp (v : BitVec 15) : (s.putAmp v).amp = v := rfl
@[simp] theorem State.putAmp_theta (v : BitVec 15) : (s.putAmp v).theta = s.theta := rfl
@[simp] theorem State.putAmp_tri (v : BitVec 15) : (s.putAmp v).tri = s.tri := rfl
@[simp] theorem State.putAmp_saw (v : BitVec 15) : (s.putAmp v).saw = s.saw := rfl
@[simp] theorem State.putAmp_sqr (v : BitVec 15) : (s.putAmp v).sqr = s.sqr := rfl
@[simp] theorem State.putAmp_rnd (v : BitVec 15) : (s.putAmp v).rnd = s.rnd := rfl
@[simp] theorem State.putAmp_sample (v : BitVec 15) : (s.putAmp v).sample = s.sample := rfl
@[simp] theorem State.putAmp_out (v : BitVec 15) : (s.putAmp v).out = s.out := rfl
@[simp] theorem State.putAmp_returned (v : BitVec 15) : (s.putAmp v).returned = s.returned := rfl
@[simp] theorem State.putAmp_inputs (v : BitVec 15) : (s.putAmp v).inputs = s.inputs := rfl

/-! `putTheta` -/

@[simp] theorem State.putTheta_wave (v : Binary64) : (s.putTheta v).wave = s.wave := rfl
@[simp] theorem State.putTheta_freq (v : Binary64) : (s.putTheta v).freq = s.freq := rfl
@[simp] theorem State.putTheta_amp (v : Binary64) : (s.putTheta v).amp = s.amp := rfl
@[simp] theorem State.putTheta_theta (v : Binary64) : (s.putTheta v).theta = v := rfl
@[simp] theorem State.putTheta_tri (v : Binary64) : (s.putTheta v).tri = s.tri := rfl
@[simp] theorem State.putTheta_saw (v : Binary64) : (s.putTheta v).saw = s.saw := rfl
@[simp] theorem State.putTheta_sqr (v : Binary64) : (s.putTheta v).sqr = s.sqr := rfl
@[simp] theorem State.putTheta_rnd (v : Binary64) : (s.putTheta v).rnd = s.rnd := rfl
@[simp] theorem State.putTheta_sample (v : Binary64) : (s.putTheta v).sample = s.sample := rfl
@[simp] theorem State.putTheta_out (v : Binary64) : (s.putTheta v).out = s.out := rfl
@[simp] theorem State.putTheta_returned (v : Binary64) : (s.putTheta v).returned = s.returned := rfl
@[simp] theorem State.putTheta_inputs (v : Binary64) : (s.putTheta v).inputs = s.inputs := rfl

/-! `putTri` -/

@[simp] theorem State.putTri_wave (v : Tri) : (s.putTri v).wave = s.wave := rfl
@[simp] theorem State.putTri_freq (v : Tri) : (s.putTri v).freq = s.freq := rfl
@[simp] theorem State.putTri_amp (v : Tri) : (s.putTri v).amp = s.amp := rfl
@[simp] theorem State.putTri_theta (v : Tri) : (s.putTri v).theta = s.theta := rfl
@[simp] theorem State.putTri_tri (v : Tri) : (s.putTri v).tri = v := rfl
@[simp] theorem State.putTri_saw (v : Tri) : (s.putTri v).saw = s.saw := rfl
@[simp] theorem State.putTri_sqr (v : Tri) : (s.putTri v).sqr = s.sqr := rfl
@[simp] theorem State.putTri_rnd (v : Tri) : (s.putTri v).rnd = s.rnd := rfl
@[simp] theorem State.putTri_sample (v : Tri) : (s.putTri v).sample = s.sample := rfl
@[simp] theorem State.putTri_out (v : Tri) : (s.putTri v).out = s.out := rfl
@[simp] theorem State.putTri_returned (v : Tri) : (s.putTri v).returned = s.returned := rfl
@[simp] theorem State.putTri_inputs (v : Tri) : (s.putTri v).inputs = s.inputs := rfl

/-! `putSaw` -/

@[simp] theorem State.putSaw_wave (v : Saw) : (s.putSaw v).wave = s.wave := rfl
@[simp] theorem State.putSaw_freq (v : Saw) : (s.putSaw v).freq = s.freq := rfl
@[simp] theorem State.putSaw_amp (v : Saw) : (s.putSaw v).amp = s.amp := rfl
@[simp] theorem State.putSaw_theta (v : Saw) : (s.putSaw v).theta = s.theta := rfl
@[simp] theorem State.putSaw_tri (v : Saw) : (s.putSaw v).tri = s.tri := rfl
@[simp] theorem State.putSaw_saw (v : Saw) : (s.putSaw v).saw = v := rfl
@[simp] theorem State.putSaw_sqr (v : Saw) : (s.putSaw v).sqr = s.sqr := rfl
@[simp] theorem State.putSaw_rnd (v : Saw) : (s.putSaw v).rnd = s.rnd := rfl
@[simp] theorem State.putSaw_sample (v : Saw) : (s.putSaw v).sample = s.sample := rfl
@[simp] theorem State.putSaw_out (v : Saw) : (s.putSaw v).out = s.out := rfl
@[simp] theorem State.putSaw_returned (v : Saw) : (s.putSaw v).returned = s.returned := rfl
@[simp] theorem State.putSaw_inputs (v : Saw) : (s.putSaw v).inputs = s.inputs := rfl

/-! `putSqr` -/

@[simp] theorem State.putSqr_wave (v : Sqr) : (s.putSqr v).wave = s.wave := rfl
@[simp] theorem State.putSqr_freq (v : Sqr) : (s.putSqr v).freq = s.freq := rfl
@[simp] theorem State.putSqr_amp (v : Sqr) : (s.putSqr v).amp = s.amp := rfl
@[simp] theorem State.putSqr_theta (v : Sqr) : (s.putSqr v).theta = s.theta := rfl
@[simp] theorem State.putSqr_tri (v : Sqr) : (s.putSqr v).tri = s.tri := rfl
@[simp] theorem State.putSqr_saw (v : Sqr) : (s.putSqr v).saw = s.saw := rfl
@[simp] theorem State.putSqr_sqr (v : Sqr) : (s.putSqr v).sqr = v := rfl
@[simp] theorem State.putSqr_rnd (v : Sqr) : (s.putSqr v).rnd = s.rnd := rfl
@[simp] theorem State.putSqr_sample (v : Sqr) : (s.putSqr v).sample = s.sample := rfl
@[simp] theorem State.putSqr_out (v : Sqr) : (s.putSqr v).out = s.out := rfl
@[simp] theorem State.putSqr_returned (v : Sqr) : (s.putSqr v).returned = s.returned := rfl
@[simp] theorem State.putSqr_inputs (v : Sqr) : (s.putSqr v).inputs = s.inputs := rfl

/-! `putRnd` -/

@[simp] theorem State.putRnd_wave (v : Rnd) : (s.putRnd v).wave = s.wave := rfl
@[simp] theorem State.putRnd_freq (v : Rnd) : (s.putRnd v).freq = s.freq := rfl
@[simp] theorem State.putRnd_amp (v : Rnd) : (s.putRnd v).amp = s.amp := rfl
@[simp] theorem State.putRnd_theta (v : Rnd) : (s.putRnd v).theta = s.theta := rfl
@[simp] theorem State.putRnd_tri (v : Rnd) : (s.putRnd v).tri = s.tri := rfl
@[simp] theorem State.putRnd_saw (v : Rnd) : (s.putRnd v).saw = s.saw := rfl
@[simp] theorem State.putRnd_sqr (v : Rnd) : (s.putRnd v).sqr = s.sqr := rfl
@[simp] theorem State.putRnd_rnd (v : Rnd) : (s.putRnd v).rnd = v := rfl
@[simp] theorem State.putRnd_sample (v : Rnd) : (s.putRnd v).sample = s.sample := rfl
@[simp] theorem State.putRnd_out (v : Rnd) : (s.putRnd v).out = s.out := rfl
@[simp] theorem State.putRnd_returned (v : Rnd) : (s.putRnd v).returned = s.returned := rfl
@[simp] theorem State.putRnd_inputs (v : Rnd) : (s.putRnd v).inputs = s.inputs := rfl

/-! `putSample` -/

@[simp] theorem State.putSample_wave (v : Int) : (s.putSample v).wave = s.wave := rfl
@[simp] theorem State.putSample_freq (v : Int) : (s.putSample v).freq = s.freq := rfl
@[simp] theorem State.putSample_amp (v : Int) : (s.putSample v).amp = s.amp := rfl
@[simp] theorem State.putSample_theta (v : Int) : (s.putSample v).theta = s.theta := rfl
@[simp] theorem State.putSample_tri (v : Int) : (s.putSample v).tri = s.tri := rfl
@[simp] theorem State.putSample_saw (v : Int) : (s.putSample v).saw = s.saw := rfl
@[simp] theorem State.putSample_sqr (v : Int) : (s.putSample v).sqr = s.sqr := rfl
@[simp] theorem State.putSample_rnd (v : Int) : (s.putSample v).rnd = s.rnd := rfl
@[simp] theorem State.putSample_sample (v : Int) : (s.putSample v).sample = v := rfl
@[simp] theorem State.putSample_out (v : Int) : (s.putSample v).out = s.out := rfl
@[simp] theorem State.putSample_returned (v : Int) : (s.putSample v).returned = s.returned := rfl
@[simp] theorem State.putSample_inputs (v : Int) : (s.putSample v).inputs = s.inputs := rfl

/-! `putOut` -/

@[simp] theorem State.putOut_wave (v : Buffer) : (s.putOut v).wave = s.wave := rfl
@[simp] theorem State.putOut_freq (v : Buffer) : (s.putOut v).freq = s.freq := rfl
@[simp] theorem State.putOut_amp (v : Buffer) : (s.putOut v).amp = s.amp := rfl
@[simp] theorem State.putOut_theta (v : Buffer) : (s.putOut v).theta = s.theta := rfl
@[simp] theorem State.putOut_tri (v : Buffer) : (s.putOut v).tri = s.tri := rfl
@[simp] theorem State.putOut_saw (v : Buffer) : (s.putOut v).saw = s.saw := rfl
@[simp] theorem State.putOut_sqr (v : Buffer) : (s.putOut v).sqr = s.sqr := rfl
@[simp] theorem State.putOut_rnd (v : Buffer) : (s.putOut v).rnd = s.rnd := rfl
@[simp] theorem State.putOut_sample (v : Buffer) : (s.putOut v).sample = s.sample := rfl
@[simp] theorem State.putOut_out (v : Buffer) : (s.putOut v).out = v := rfl
@[simp] theorem State.putOut_returned (v : Buffer) : (s.putOut v).returned = s.returned := rfl
@[simp] theorem State.putOut_inputs (v : Buffer) : (s.putOut v).inputs = s.inputs := rfl

/-! `putReturned` -/

@[simp] theorem State.putReturned_wave (v : List Buffer) : (s.putReturned v).wave = s.wave := rfl
@[simp] theorem State.putReturned_freq (v : List Buffer) : (s.putReturned v).freq = s.freq := rfl
@[simp] theorem State.putReturned_amp (v : List Buffer) : (s.putReturned v).amp = s.amp := rfl
@[simp] theorem State.putReturned_theta (v : List Buffer) : (s.putReturned v).theta = s.theta := rfl
@[simp] theorem State.putReturned_tri (v : List Buffer) : (s.putReturned v).tri = s.tri := rfl
@[simp] theorem State.putReturned_saw (v : List Buffer) : (s.putReturned v).saw = s.saw := rfl
@[simp] theorem State.putReturned_sqr (v : List Buffer) : (s.putReturned v).sqr = s.sqr := rfl
@[simp] theorem State.putReturned_rnd (v : List Buffer) : (s.putReturned v).rnd = s.rnd := rfl
@[simp] theorem State.putReturned_sample (v : List Buffer) : (s.putReturned v).sample = s.sample := rfl
@[simp] theorem State.putReturned_out (v : List Buffer) : (s.putReturned v).out = s.out := rfl
@[simp] theorem State.putReturned_returned (v : List Buffer) : (s.putReturned v).returned = v := rfl
@[simp] theorem State.putReturned_inputs (v : List Buffer) : (s.putReturned v).inputs = s.inputs := rfl

/-! `putInputs` -/

@[simp] theorem State.putInputs_wave (v : List Turn) : (s.putInputs v).wave = s.wave := rfl
@[simp] theorem State.putInputs_freq (v : List Turn) : (s.putInputs v).freq = s.freq := rfl
@[simp] theorem State.putInputs_amp (v : List Turn) : (s.putInputs v).amp = s.amp := rfl
@[simp] theorem State.putInputs_theta (v : List Turn) : (s.putInputs v).theta = s.theta := rfl
@[simp] theorem State.putInputs_tri (v : List Turn) : (s.putInputs v).tri = s.tri := rfl
@[simp] theorem State.putInputs_saw (v : List Turn) : (s.putInputs v).saw = s.saw := rfl
@[simp] theorem State.putInputs_sqr (v : List Turn) : (s.putInputs v).sqr = s.sqr := rfl
@[simp] theorem State.putInputs_rnd (v : List Turn) : (s.putInputs v).rnd = s.rnd := rfl
@[simp] theorem State.putInputs_sample (v : List Turn) : (s.putInputs v).sample = s.sample := rfl
@[simp] theorem State.putInputs_out (v : List Turn) : (s.putInputs v).out = s.out := rfl
@[simp] theorem State.putInputs_returned (v : List Turn) : (s.putInputs v).returned = s.returned := rfl
@[simp] theorem State.putInputs_inputs (v : List Turn) : (s.putInputs v).inputs = v := rfl

@[simp] theorem State.putInputs_self : s.putInputs s.inputs = s := rfl

@[simp] theorem State.putInputs_putInputs (a b : List Turn) : (s.putInputs a).putInputs b = s.putInputs b := rfl

@[simp] theorem State.returnBuffer_returned : s.returnBuffer.returned = s.returned ++ [s.out] := rfl

@[simp] theorem State.returnBuffer_out : s.returnBuffer.out = s.out := rfl

@[simp] theorem State.returnBuffer_rnd : s.returnBuffer.rnd = s.rnd := rfl

end

end Sys2Proof.Machine
end

