-- ==== Sys2Proof/Laws/Oscillators.lean ====
section
/-! SUPPORT. Everything the four step operations can do: each either takes its guard or advances its record, and its
sample lies in `-A .. A`. -/

set_option Elab.async false

namespace Sys2Proof.Machine

/-! ## Small laws -/

theorem clamp_bounds (v : Int) (A : Nat) : -(A : Int) ≤ clamp v (-(A : Int)) A ∧ clamp v (-(A : Int)) A ≤ A := by
  unfold clamp
  split_ifs <;> omega

@[simp] theorem Sign.neg_ne (σ : Sign) : σ.neg ≠ σ := by cases σ <;> decide

theorem Sign.toInt_cases (σ : Sign) : σ.toInt = 1 ∨ σ.toInt = -1 := by cases σ <;> simp [Sign.toInt]

/-- Frequency 0, of either sign, is degenerate for every oscillator (R100). -/
theorem halfPeriod_of_eq_zero {f : Binary64} (h : F64.eq f F64.posZero = true) : halfPeriod f = 0 := by
  simp [halfPeriod, h]

theorem period_of_eq_zero {f : Binary64} (h : F64.eq f F64.posZero = true) : period f = 0 := by
  simp [period, h]

/-! ## Guard or advance -/

theorem sineOp_guard {f : Binary64} (h : F64.eq f F64.posZero = true ∨ F64.isFinite (phaseInc f) = false)
    (sin : Binary64 → Binary64) (A : Nat) (θ : Binary64) : sineOp sin f A θ = (θ, 0) := by
  unfold sineOp
  rcases h with h | h
  · rw [if_pos h]
  · simp [h]

theorem sineOp_advance {f : Binary64} (h0 : F64.eq f F64.posZero = false) (h : F64.isFinite (phaseInc f) = true)
    (sin : Binary64 → Binary64) (A : Nat) (θ : Binary64) :
    sineOp sin f A θ =
      (wrapPhase (F64.add θ (phaseInc f)), sineSample sin A (wrapPhase (F64.add θ (phaseInc f)))) := by
  simp [sineOp, h0, h]

theorem triOp_guard {f : Binary64} (h : halfPeriod f = 0) (A : Nat) (t : Tri) : triOp f A t = (t, 0) :=
  if_pos h

/-- The new triangle record, for a step size. -/
def triNext (A : Nat) (size : Nat) (t : Tri) : Tri :=
  { level := t.level + t.sign.toInt * size
    sign := if (A : Int) ≤ t.level + t.sign.toInt * size then .minus
      else if t.level + t.sign.toInt * size ≤ -(A : Int) then .plus else t.sign }

theorem triOp_advance {f : Binary64} (h : halfPeriod f ≠ 0) (A : Nat) (t : Tri) :
    triOp f A t = (triNext A (2 * A / halfPeriod f) t,
      clamp (triNext A (2 * A / halfPeriod f) t).level (-(A : Int)) A) :=
  if_neg h

theorem sawOp_guard {f : Binary64} (h : period f = 0) (A : Nat) (w : Saw) : sawOp f A w = (w, 0) :=
  if_pos h

/-- The new sawtooth record, for a step size. -/
def sawNext (A : Nat) (size : Nat) (w : Saw) : Saw :=
  { level := if (A : Int) ≤ w.level + size then -(A : Int) else w.level + size }

theorem sawOp_advance {f : Binary64} (h : period f ≠ 0) (A : Nat) (w : Saw) :
    sawOp f A w = (sawNext A (2 * A / period f) w, clamp (sawNext A (2 * A / period f) w).level (-(A : Int)) A) :=
  if_neg h

theorem sqrOp_guard {f : Binary64} (h : halfPeriod f = 0) (A : Nat) (q : Sqr) : sqrOp f A q = (q, 0) :=
  if_pos h

/-- The new square record, for a half-period. -/
def sqrNext (hp : Nat) (q : Sqr) : Sqr :=
  { sign := if q.count % hp = 0 then q.sign.neg else q.sign
    count := (q.count % hp + 1) % hp }

theorem sqrOp_advance {f : Binary64} (h : halfPeriod f ≠ 0) (A : Nat) (q : Sqr) :
    sqrOp f A q = (sqrNext (halfPeriod f) q, (sqrNext (halfPeriod f) q).sign.toInt * A) :=
  if_neg h

/-! ## Step sizes and samples -/

theorem stepSize_le (A p : Nat) : 2 * A / p ≤ 2 * A := Nat.div_le_self _ _

theorem triOp_sample (f : Binary64) (A : Nat) (t : Tri) :
    -(A : Int) ≤ (triOp f A t).2 ∧ (triOp f A t).2 ≤ A := by
  by_cases h : halfPeriod f = 0
  · rw [triOp_guard h]; constructor <;> simp
  · rw [triOp_advance h]; exact clamp_bounds _ _

theorem sawOp_sample (f : Binary64) (A : Nat) (w : Saw) :
    -(A : Int) ≤ (sawOp f A w).2 ∧ (sawOp f A w).2 ≤ A := by
  by_cases h : period f = 0
  · rw [sawOp_guard h]; constructor <;> simp
  · rw [sawOp_advance h]; exact clamp_bounds _ _

theorem sqrOp_sample (f : Binary64) (A : Nat) (q : Sqr) :
    -(A : Int) ≤ (sqrOp f A q).2 ∧ (sqrOp f A q).2 ≤ A := by
  by_cases h : halfPeriod f = 0
  · rw [sqrOp_guard h]; constructor <;> simp
  · rw [sqrOp_advance h]
    rcases Sign.toInt_cases (sqrNext (halfPeriod f) q).sign with e | e <;> simp only [e] <;> omega

/-! ## The sine stays within what R15 (a) allows, so its sample does -/

theorem sinRounded_small (x : Binary64) :
    F64.isFinite (Sine.sinRounded x) = true ∧ F64.units (Sine.sinRounded x) ≤ F64.unitsPerOne := by
  have one : F64.roundMag (1 * F64.unitsPerOne) 1 = F64.magBits F64.one := by decide +kernel
  have oneFinite : F64.magBits F64.one < F64.infMag := by decide +kernel
  have oneUnits : F64.unitsOfMag (F64.magBits F64.one) = F64.unitsPerOne := by decide +kernel
  unfold Sine.sinRounded
  by_cases h : Sine.inRange x
  · rw [if_pos h]
    have hm : (if 1 < Sine.mag (Sine.series (F64.value x)) then 1 else Sine.mag (Sine.series (F64.value x))) ≤ 1 := by
      split_ifs with h1 <;> linarith
    have hm0 : 0 ≤ (if 1 < Sine.mag (Sine.series (F64.value x)) then 1
        else Sine.mag (Sine.series (F64.value x))) := by
      split_ifs with h1
      · norm_num
      · unfold Sine.mag; split_ifs <;> linarith
    dsimp only
    generalize (if 1 < Sine.mag (Sine.series (F64.value x)) then (1 : ℚ)
      else Sine.mag (Sine.series (F64.value x))) = m at *
    have hq : m.num.natAbs ≤ m.den := by
      have h1 : m.num ≤ m.den := by
        have := (Rat.le_iff m 1).1 hm
        simpa using this
      have h2 : 0 ≤ m.num := Rat.num_nonneg.2 hm0
      omega
    have hr : F64.roundMag (m.num.natAbs * F64.unitsPerOne) m.den ≤ F64.magBits F64.one := by
      rw [← one]
      refine F64.roundMag_mono m.den_pos one_pos ?_
      rw [Nat.mul_one, Nat.one_mul, Nat.mul_comm]
      exact Nat.mul_le_mul_left _ hq
    rw [F64.ofRat, F64.isFinite_iff, F64.units, F64.magBits_pack _ _ (F64.roundMag_lt_pow _ _)]
    exact ⟨lt_of_le_of_lt hr oneFinite, (F64.unitsOfMag_strictMono.monotone hr).trans_eq oneUnits⟩
  · rw [if_neg h]
    exact ⟨by decide +kernel, by decide +kernel⟩

/-- R15 (a). -/
theorem sin_small (x : Binary64) (hx : F64.isFinite x = true) :
    F64.isFinite (Sine.sin x) = true ∧ F64.units (Sine.sin x) ≤ F64.unitsPerOne := by
  unfold Sine.sin
  cases h : Sine.admissible x (Config.freeSin x)
  · simpa [hx, h] using sinRounded_small x
  · simp only [Sine.admissible, Bool.and_eq_true, decide_eq_true_eq] at h
    simp [hx, h.1.1.1, h.1.1.2]

theorem sineSample_bounds (A : Nat) (t : Binary64) (hA : A < 2 ^ 53) (ht : F64.isFinite t = true) :
    -(A : Int) ≤ sineSample Sine.sin A t ∧ sineSample Sine.sin A t ≤ A := by
  obtain ⟨h1, h2⟩ := sin_small t ht
  have := F64.truncInt_mul_ofInt A (Sine.sin t) hA h1 h2
  unfold sineSample
  omega

/-! ## The phase stays in range (R105) -/

theorem phaseOk_iff (x : Binary64) : phaseOk x ↔ F64.sign x = false ∧ F64.magBits x < F64.magBits Config.twoPi := by
  have h2 : F64.isNaN Config.twoPi = false := by decide +kernel
  have hk : F64.orderKey Config.twoPi = F64.magBits Config.twoPi := by decide +kernel
  have hi : F64.magBits Config.twoPi < F64.infMag := by decide +kernel
  have hk' : F64.sign x = false → F64.orderKey x = F64.magBits x := fun h => by simp [F64.orderKey, h]
  unfold phaseOk
  constructor
  · rintro ⟨h, h'⟩
    refine ⟨h, ?_⟩
    simp only [F64.lt, Bool.and_eq_true, decide_eq_true_eq, hk, hk' h] at h'
    exact_mod_cast h'.2
  · rintro ⟨h, h'⟩
    refine ⟨h, ?_⟩
    have hn : F64.isNaN x = false := by
      rw [Bool.eq_false_iff, Ne, F64.isNaN_iff]; omega
    simpa only [F64.lt, hn, h2, hk, hk' h, Bool.not_false, Bool.true_and, decide_eq_true_eq, Nat.cast_lt] using h'

theorem phaseOk_finite {x : Binary64} (h : phaseOk x) : F64.isFinite x = true := by
  have hi : F64.magBits Config.twoPi < F64.infMag := by decide +kernel
  rw [phaseOk_iff] at h
  rw [F64.isFinite_iff]; omega

/-- The increment of a legal frequency above 0 is not negative (R103). -/
theorem phaseInc_sign {f : Binary64} (h : F64.legalFreq f = true) (h0 : F64.eq f F64.posZero = false) :
    F64.sign (phaseInc f) = false := by
  have hz : F64.orderKey F64.posZero = 0 := by decide +kernel
  have hzn : F64.isNaN F64.posZero = false := by decide +kernel
  have hp : F64.isNaN Config.twoPi = false ∧ F64.isInf Config.twoPi = false ∧ F64.sign Config.twoPi = false ∧ F64.isFinite Config.twoPi = true := by decide +kernel
  have hfs : F64.isNaN Config.fs = false ∧ F64.isInf Config.fs = false ∧ F64.sign Config.fs = false ∧ F64.magBits Config.fs ≠ 0 ∧ F64.isFinite Config.fs = true := by decide +kernel
  simp only [F64.legalFreq, Bool.and_eq_true, Bool.or_eq_true, decide_eq_true_eq] at h
  have hs : F64.sign f = false := by
    rcases h.2 with h2 | h2
    · simpa using h2
    · have hk : F64.orderKey f = 0 := by simp [F64.orderKey, h2]
      simp [F64.eq, hz, hzn, F64.isNaN_of_isFinite h.1, hk] at h0
  have hm : F64.sign (F64.mul Config.twoPi f) = false := by
    rw [F64.mul_finite _ _ hp.2.2.2 h.1, F64.sign_pack _ _ (F64.roundMag_lt_pow _ _), hp.2.2.1, hs]; rfl
  have hmn : F64.isNaN (F64.mul Config.twoPi f) = false := by
    rw [F64.mul_finite _ _ hp.2.2.2 h.1, Bool.eq_false_iff, Ne, F64.isNaN_iff, F64.magBits_pack _ _ (F64.roundMag_lt_pow _ _)]
    have := F64.roundMag_le (F64.units Config.twoPi * F64.units f) F64.unitsPerOne
    omega
  rw [phaseInc, F64.sign_div hmn hfs.2.2.2.2 hfs.2.2.2.1, hm, hfs.2.2.1]; rfl

/-- A sum of a phase and a finite increment is finite and not negative (R104). -/
theorem add_phase {θ i : Binary64} (hθ : phaseOk θ) (hi : F64.isFinite i = true) (hs : F64.sign i = false) :
    F64.isFinite (F64.add θ i) = true ∧ F64.sign (F64.add θ i) = false := by
  have hf := phaseOk_finite hθ
  rw [phaseOk_iff] at hθ
  have e : F64.sUnits θ + F64.sUnits i = ((F64.units θ + F64.units i : Nat) : Int) := by
    simp [F64.sUnits, hθ.1, hs]
  by_cases h0 : F64.sUnits θ + F64.sUnits i = 0
  · have : F64.add θ i = F64.posZero := by
      simp [F64.add, F64.isNaN_of_isFinite hf, F64.isNaN_of_isFinite hi, F64.isInf_of_isFinite hf, F64.isInf_of_isFinite hi, h0, hs]
    rw [this]; decide +kernel
  · rw [F64.add_finite _ _ hf hi h0, F64.isFinite_iff, F64.magBits_pack _ _ (F64.roundMag_lt_pow _ _),
      F64.sign_pack _ _ (F64.roundMag_lt_pow _ _), F64.roundMag_lt_infMag_iff _ _ one_pos, e]
    refine ⟨?_, decide_eq_false (by omega)⟩
    have h1 : F64.units θ ≤ F64.units Config.twoPi := F64.unitsOfMag_strictMono.monotone hθ.2.le
    have h2 : F64.units i ≤ F64.unitsOfMag (F64.infMag - 1) := F64.unitsOfMag_strictMono.monotone (by
      have := (F64.isFinite_iff i).1 hi; omega)
    have h3 : F64.units Config.twoPi + F64.unitsOfMag (F64.infMag - 1) < 1 * F64.overflowUnits := by decide +kernel
    rw [Int.natAbs_natCast]
    omega

/-- R105: the wrapped phase lies in `[+0.0, TWO_PI)`. -/
theorem wrapPhase_ok {t : Binary64} (hf : F64.isFinite t = true) (hs : F64.sign t = false) : phaseOk (wrapPhase t) := by
  have hp : F64.isFinite Config.twoPi = true ∧ F64.magBits Config.twoPi ≠ 0 ∧ F64.isNaN Config.twoPi = false := by decide +kernel
  unfold wrapPhase
  split_ifs with h
  · obtain ⟨-, -, h1, h2⟩ := F64.rem_spec t Config.twoPi hf hp.1 hp.2.1
    rw [phaseOk_iff]; exact ⟨h1.trans hs, h2⟩
  · refine ⟨hs, ?_⟩
    simp only [F64.ge, F64.lt, F64.isNaN_of_isFinite hf, hp.2.2, Bool.not_false, Bool.true_and, decide_eq_true_eq] at h ⊢
    omega

/-- R105: SINE_STEP keeps the phase in range. -/
theorem sineOp_phase {f θ : Binary64} (hf : F64.legalFreq f = true) (hθ : phaseOk θ) (sin : Binary64 → Binary64)
    (A : Nat) : phaseOk (sineOp sin f A θ).1 := by
  cases h0 : F64.eq f F64.posZero
  · cases hi : F64.isFinite (phaseInc f)
    · rw [sineOp_guard (Or.inr hi)]; exact hθ
    · rw [sineOp_advance h0 hi]
      obtain ⟨h1, h2⟩ := add_phase hθ hi (phaseInc_sign hf h0)
      exact wrapPhase_ok h1 h2
  · rw [sineOp_guard (Or.inl h0)]; exact hθ

end Sys2Proof.Machine
end

