-- ==== Sys2Proof/Laws/Step.lean ====
section
/-! SUPPORT. Everything a frame, a request and a step can do, said once: later proofs cite these and unfold nothing. -/

namespace Sys2Proof.Machine

/-! ## The step operation of a frame -/

/-- A step operation changes its own record and the sample, and nothing else. -/
theorem stepSelected_keeps (s : State) :
    (stepSelected s).wave = s.wave ∧ (stepSelected s).freq = s.freq ∧ (stepSelected s).amp = s.amp ∧
    (stepSelected s).rnd = s.rnd ∧ (stepSelected s).out = s.out ∧ (stepSelected s).returned = s.returned ∧
    (stepSelected s).inputs = s.inputs := by
  unfold stepSelected
  cases Waveform.ofCode s.wave <;> exact ⟨rfl, rfl, rfl, rfl, rfl, rfl, rfl⟩

/-- The step operation a frame runs is the one its selector decodes to (R74). -/
theorem exec_decodeSelector (s : State) : exec (decodeSelector s.wave) s = .next (stepSelected s) := by
  unfold decodeSelector stepSelected
  cases Waveform.ofCode s.wave <;> rfl

/-! ## FRAME -/

/-- The state after a frame's writes (R133). -/
def frameNext (s : State) : State :=
  ((stepSelected s).putOut
    { len := s.out.len, cells := Memory.putFrame s.out.cells s.rnd.cursor (stepSelected s).sample }).putRnd
    { s.rnd with cursor := s.rnd.cursor + 4, remaining := s.rnd.remaining - 1 }

/-- Everything FRAME can do. -/
theorem execFrame_eq (s : State) :
    execFrame s =
      if frameEnabled s then
        (if s.rnd.cursor + 4 ≤ s.out.len then .next (frameNext s) else .fault (.outsideBuffer s.rnd.cursor))
      else .refused .notEnabled := by
  obtain ⟨-, -, -, hr, ho, -, -⟩ := stepSelected_keeps s
  unfold execFrame writeSample
  rw [Buffer.writeFrame_eq, hr, ho]
  split_ifs <;> rfl

theorem execFrame_next {s t : State} (h : execFrame s = .next t) :
    frameEnabled s = true ∧ s.rnd.cursor + 4 ≤ s.out.len ∧ t = frameNext s := by
  rw [execFrame_eq] at h
  split_ifs at h with h1 h2
  exact ⟨h1, h2, (Host.Outcome.next.inj h).symm⟩

theorem frameEnabled_iff (s : State) : frameEnabled s = true ↔ s.rnd.active = true ∧ 0 < s.rnd.remaining := by
  simp [frameEnabled]

theorem completeEnabled_iff (s : State) : completeEnabled s = true ↔ s.rnd.active = true ∧ s.rnd.remaining = 0 := by
  simp [completeEnabled]

/-! ## COMPLETE and RENDER -/

/-- The state after completion (R136). -/
def completeNext (s : State) : State := (s.putRnd { s.rnd with active := false }).returnBuffer

theorem execComplete_next {s t : State} (h : execComplete s = .next t) :
    completeEnabled s = true ∧ t = completeNext s := by
  unfold execComplete at h
  split_ifs at h with h1
  exact ⟨h1, (Host.Outcome.next.inj h).symm⟩

theorem execRender_next {len : BitVec 32} {s t : State} (h : execRender len s = .next t) :
    s.rnd.active = false ∧
      ((len.toNat % 4 ≠ 0 ∧ t = malformed len.toNat s) ∨ (len.toNat % 4 = 0 ∧ t = startRequest len.toNat s)) := by
  unfold execRender Config.frameBytes at h
  split_ifs at h with h1 h2
  · exact ⟨by simpa using h1, Or.inl ⟨h2, (Host.Outcome.next.inj h).symm⟩⟩
  · exact ⟨by simpa using h1, Or.inr ⟨not_not.1 h2, (Host.Outcome.next.inj h).symm⟩⟩

/-! ## A step -/

/-- The render engine's step: a frame, completion, or none while idle. -/
theorem engineTurn_next {s t : State} (h : engineTurn s = .next t) :
    (frameEnabled s = true ∧ s.rnd.cursor + 4 ≤ s.out.len ∧ t = frameNext s) ∨
    (completeEnabled s = true ∧ t = completeNext s) ∨
    (s.rnd.active = false ∧ t = s) := by
  unfold engineTurn at h
  split_ifs at h with h1 h2
  · exact Or.inl (execFrame_next h)
  · exact Or.inr (Or.inl (execComplete_next h))
  · refine Or.inr (Or.inr ⟨?_, (Host.Outcome.next.inj h).symm⟩)
    have e1 := mt (frameEnabled_iff s).2 h1
    have e2 := mt (completeEnabled_iff s).2 h2
    cases ha : s.rnd.active
    · rfl
    · simp only [ha, true_and] at e1 e2; omega

/-- Everything a command can do when it is executed. -/
theorem commandTurn_next {w : CmdWord} {s t : State} (h : commandTurn w s = .next t) :
    (∃ kind, t = s.putWave kind) ∨
    (∃ freq, F64.legalFreq freq = true ∧ t = s.putFreq freq) ∨
    (∃ amp, amp ≠ 0#15 ∧ t = s.putAmp amp) ∨
    (∃ len : BitVec 32, s.rnd.active = false ∧ len.toNat % 4 ≠ 0 ∧ t = malformed len.toNat s) ∨
    (∃ len : BitVec 32, s.rnd.active = false ∧ len.toNat % 4 = 0 ∧ t = startRequest len.toNat s) := by
  unfold commandTurn at h
  split at h
  case h_2 => cases h
  case h_1 i hi =>
    rcases decodeCommand_ok hi with ⟨-, -, rfl⟩ | ⟨-, hf, rfl⟩ | ⟨-, -, ha, rfl⟩ | ⟨-, -, rfl⟩
    · exact Or.inl ⟨_, (Host.Outcome.next.inj h).symm⟩
    · simp only [exec, execSetFrequency, hf, if_true] at h
      exact Or.inr (Or.inl ⟨_, hf, (Host.Outcome.next.inj h).symm⟩)
    · simp only [exec, execSetAmplitude, ha, if_false] at h
      exact Or.inr (Or.inr (Or.inl ⟨_, ha, (Host.Outcome.next.inj h).symm⟩))
    · obtain ⟨h1, ⟨h2, rfl⟩ | ⟨h2, rfl⟩⟩ := execRender_next h
      · exact Or.inr (Or.inr (Or.inr (Or.inl ⟨_, h1, h2, rfl⟩)))
      · exact Or.inr (Or.inr (Or.inr (Or.inr ⟨_, h1, h2, rfl⟩)))

/-- Everything a step can do: the render engine's step, a command's, a reset, each with the moves still to come. -/
theorem step_next {s t : State} (h : step s = .next t) :
    ∃ rest, (s.inputs = [] ∧ rest = [] ∨ s.inputs = .engine :: rest) ∧ engineTurn (s.putInputs rest) = .next t ∨
      (∃ w, s.inputs = .command w :: rest ∧ commandTurn w (s.putInputs rest) = .next t) ∨
      (s.inputs = .reset :: rest ∧ s.rnd.active = false ∧ t = resetBlock (s.putInputs rest)) := by
  unfold step nextTurn at h
  split at h
  case h_1 hi =>
    refine ⟨[], Or.inl ⟨Or.inl ⟨hi, rfl⟩, ?_⟩⟩
    have : s.putInputs [] = s := by rw [← hi]; rfl
    rw [this]; exact h
  case h_2 w rest hi => exact ⟨rest, Or.inr (Or.inl ⟨w, hi, h⟩)⟩
  case h_3 rest hi => exact ⟨rest, Or.inl ⟨Or.inr hi, h⟩⟩
  case h_4 rest hi =>
    unfold resetTurn at h
    split_ifs at h with ha
    exact ⟨rest, Or.inr (Or.inr ⟨hi, by simpa using ha, (Host.Outcome.next.inj h).symm⟩)⟩

/-! ## A run -/

theorem run_one (s : State) : (Host.Core.run core 1 s : Host.Outcome State Fault Refusal) = step s := by
  have h : ∀ (M : Host.Core) (a : M.State), M.run 1 a = M.step a := by
    intro M a; rw [Host.Core.run]; cases M.step a <;> rfl
  exact h core s

theorem run_next {s t : State} (h : step s = .next t) (k : Nat) :
    (Host.Core.run core (k + 1) s : Host.Outcome State Fault Refusal) = Host.Core.run core k t := by
  have g : ∀ (M : Host.Core) (a b : M.State), M.step a = .next b → M.run (k + 1) a = M.run k b := by
    intro M a b h; rw [Host.Core.run, h]
  exact g core s t h

end Sys2Proof.Machine
end

