-- ==== Sys2Proof/Laws/Invariant.lean ====
section
/-! SUPPORT. What keeps the invariant: each record's bounds through its own step operation (R33, R34, R105), the whole
invariant through a frame, and a sample read back from its two bytes. -/

namespace Sys2Proof.Machine

/-! ## Bounds of one record -/

/-- A legal amplitude is in `1 .. 32767` (R22). -/
theorem amp_bounds {a : BitVec 15} (h : a ≠ 0#15) : 1 ≤ a.toNat ∧ a.toNat ≤ 32767 := by
  have := a.isLt
  have : a.toNat ≠ 0 := fun h' => h (BitVec.eq_of_toNat_eq (by simpa using h'))
  omega

theorem triNext_ok {A z : Nat} {t : Tri} (hA : 1 ≤ A ∧ A ≤ 32767) (hz : z ≤ 2 * A) (h : triOk t) : triOk (triNext A z t) := by
  obtain ⟨h1, h2, h3, h4⟩ := h
  obtain ⟨l, sg⟩ := t
  have e3 : sg = .plus → l < 32767 := h3
  have e4 : sg = .minus → -32767 < l := h4
  have hl : l + sg.toInt * z = l + z ∧ sg = .plus ∨ l + sg.toInt * z = l - z ∧ sg = .minus := by
    cases sg
    · left; simp [Sign.toInt]
    · right; simp [Sign.toInt]; omega
  unfold triNext triOk
  simp only at *
  generalize l + sg.toInt * z = m at *
  rcases hl with ⟨rfl, rfl⟩ | ⟨rfl, rfl⟩
  · have := e3 rfl
    refine ⟨by omega, by omega, fun hs => ?_, fun hs => ?_⟩
    · by_contra; rw [if_pos (by omega)] at hs; cases hs
    · by_contra; rw [if_neg (by omega)] at hs; split_ifs at hs
  · have := e4 rfl
    refine ⟨by omega, by omega, fun hs => ?_, fun hs => ?_⟩
    · by_contra; rw [if_pos (by omega)] at hs; cases hs
    · by_contra; rw [if_neg (by omega), if_pos (by omega)] at hs; cases hs

theorem sawNext_ok {A z : Nat} {t : Saw} (hA : 1 ≤ A ∧ A ≤ 32767) (hz : z ≤ 2 * A) (h : sawOk t) : sawOk (sawNext A z t) := by
  obtain ⟨h1, h2⟩ := h
  unfold sawNext sawOk
  simp only
  split_ifs <;> constructor <;> omega


theorem triOp_ok {f : Binary64} {A : Nat} {t : Tri} (hA : 1 ≤ A ∧ A ≤ 32767) (h : triOk t) : triOk (triOp f A t).1 := by
  by_cases hp : halfPeriod f = 0
  · rwa [triOp_guard hp]
  · rw [triOp_advance hp]; exact triNext_ok hA (stepSize_le _ _) h

theorem sawOp_ok {f : Binary64} {A : Nat} {t : Saw} (hA : 1 ≤ A ∧ A ≤ 32767) (h : sawOk t) : sawOk (sawOp f A t).1 := by
  by_cases hp : period f = 0
  · rwa [sawOp_guard hp]
  · rw [sawOp_advance hp]; exact sawNext_ok hA (stepSize_le _ _) h

/-! ## A frame -/

/-- The sample a frame writes lies in `-A .. A` (R34). -/
theorem stepSelected_sample (s : State) (h : s.Inv) :
    -(s.amp.toNat : Int) ≤ (stepSelected s).sample ∧ (stepSelected s).sample ≤ s.amp.toNat := by
  have hA : s.amp.toNat < 2^53 := by have := s.amp.isLt; omega
  unfold stepSelected
  cases Waveform.ofCode s.wave
  · show -(s.amp.toNat : Int) ≤ (sineOp Sine.sin s.freq s.ampValue s.theta).2 ∧ _ ≤ (s.amp.toNat:Int)
    cases h0 : F64.eq s.freq F64.posZero
    · cases hi : F64.isFinite (phaseInc s.freq)
      · simp [sineStep, sineOp_guard (Or.inr hi)]
      · obtain ⟨h1, h2⟩ := add_phase h.phase hi (phaseInc_sign h.freqLegal h0)
        have := sineSample_bounds s.amp.toNat _ hA (phaseOk_finite (wrapPhase_ok h1 h2))
        simpa [sineStep, sineOp_advance h0 hi, State.ampValue] using this
    · simp [sineStep, sineOp_guard (Or.inl h0)]
  · exact triOp_sample _ _ _
  · exact sawOp_sample _ _ _
  · exact sqrOp_sample _ _ _

theorem stepSelected_inv {s : State} (h : s.Inv) : (stepSelected s).Inv := by
  obtain ⟨e1, e2, e3, e4, e5, e6, e7⟩ := stepSelected_keeps s
  have hA := amp_bounds h.ampPositive
  refine ⟨e2 ▸ h.freqLegal, e3 ▸ h.ampPositive, ?_, ?_, ?_, e4 ▸ h.rnd, ?_, e5 ▸ h.out, e6 ▸ h.returned⟩
  · unfold stepSelected; cases Waveform.ofCode s.wave
    · exact sineOp_phase h.freqLegal h.phase _ _
    all_goals exact h.phase
  · unfold stepSelected; cases Waveform.ofCode s.wave
    case triangle => exact triOp_ok hA h.tri
    all_goals exact h.tri
  · unfold stepSelected; cases Waveform.ofCode s.wave
    case sawtooth => exact sawOp_ok hA h.saw
    all_goals exact h.saw
  · unfold RequestOk; rw [e4, e5]; exact h.request

theorem frameNext_inv {s : State} (h : s.Inv) (hf : frameEnabled s = true) : (frameNext s).Inv := by
  have h' := stepSelected_inv h
  obtain ⟨ha, hr⟩ := (frameEnabled_iff s).1 hf
  obtain ⟨r1, r2, r3, r4⟩ := h.request ha
  have hb := h.rnd
  obtain ⟨b1, b2, b3⟩ := hb
  refine ⟨h'.freqLegal, h'.ampPositive, h'.phase, h'.tri, h'.saw, ?_, fun _ => ?_, ?_, h'.returned⟩
  · refine ⟨b1, ?_, ?_⟩ <;> simp [frameNext] <;> omega
  · refine ⟨r1, ?_, r3, ?_⟩
    · simp [frameNext]; omega
    · exact Memory.putFrame_filled r4 _
  · exact Buffer.wf_of_filled (b := (frameNext s).out) (Memory.putFrame_filled r4 _) (by simp [frameNext]; omega)

/-! ## The bytes of a sample -/

/-- A sample within the amplitude's range is what its two bytes say (R51). -/
theorem sample_of_bytes (v : Int) (h : -32767 ≤ v ∧ v ≤ 32767) :
    (BitVec.ofInt 8 (v / 256) ++ BitVec.ofInt 8 v : BitVec 16).toInt = v := by
  have e : (BitVec.ofInt 8 (v / 256) ++ BitVec.ofInt 8 v : BitVec 16) = BitVec.ofInt 16 v := by
    apply BitVec.eq_of_toNat_eq
    have l := (BitVec.ofInt 8 v).isLt
    rw [BitVec.toNat_append, ← Nat.shiftLeft_add_eq_or_of_lt l, Nat.shiftLeft_eq]
    simp only [BitVec.toNat_ofInt]
    omega
  rw [e, BitVec.toInt_ofInt, Int.bmod_def]; omega

end Sys2Proof.Machine
end

