-- ==== Sys2Proof/Laws/PerInstr.lean ====
section
/-! SUPPORT. The statements made of every instruction, one lemma per constructor. -/

namespace Sys2Proof.Laws.RoundTrip

/-- Decoding the encoding of a well-formed instruction gives it back (R71, R74, R76). -/
def Statement (i : Instr) : Prop := ∀ e, i.wf = true → encode i = some e → decode e = .ok i

theorem setWaveform (kind : BitVec 2) : Statement (.setWaveform kind) := by
  rintro e - ⟨rfl⟩
  simp [decode, decodeCommand]

theorem setFrequency (freq : Binary64) : Statement (.setFrequency freq) := by
  rintro e h ⟨rfl⟩
  have h : F64.legalFreq freq = true := h
  simp [decode, decodeCommand, Operands.freq, h]

theorem setAmplitude (amp : BitVec 15) : Statement (.setAmplitude amp) := by
  rintro e h ⟨rfl⟩
  have h : amp ≠ 0#15 := by simpa [Instr.wf] using h
  simp [decode, decodeCommand, h]

theorem render (len : BitVec 32) : Statement (.render len) := by
  rintro e - ⟨rfl⟩
  exact decodeCommand_render len

theorem sineStep : Statement .sineStep := by
  rintro e - ⟨rfl⟩; rfl

theorem triStep : Statement .triStep := by
  rintro e - ⟨rfl⟩; rfl

theorem sawStep : Statement .sawStep := by
  rintro e - ⟨rfl⟩; rfl

theorem sqrStep : Statement .sqrStep := by
  rintro e - ⟨rfl⟩; rfl

theorem frame : Statement .frame := fun _ _ h => nomatch h

theorem complete : Statement .complete := fun _ _ h => nomatch h

end Sys2Proof.Laws.RoundTrip
end

