-- ==== Sys2Proof/Laws/Sine.lean ====
section
/-! SUPPORT. How close the sine of the model is to the real one: the series to the real sine, the rounded sine to the series,
and `SIN` to both (R15). -/

set_option Elab.async false

namespace Sys2Proof.Sine

/-- The series is the sum of the power series' first terms. -/
theorem series_eq_sum (x : ℚ) (n k : Nat) (hk : 0 < k) :
    x ^ (2 * k - 1) / ((2 * k - 1).factorial : ℚ) * bracket (x * x) n k =
      ∑ i ∈ Finset.range (n + 1), (-1) ^ i * x ^ (2 * (i + k) - 1) / ((2 * (i + k) - 1).factorial : ℚ) := by
  induction n generalizing k with
  | zero => simp [bracket]
  | succ n ih =>
    rw [Finset.sum_range_succ', bracket]
    have := ih (k + 1) (by omega)
    have e : ∀ i, (-1 : ℚ) ^ (i + 1) * x ^ (2 * (i + 1 + k) - 1) / ((2 * (i + 1 + k) - 1).factorial : ℚ)
        = - ((-1) ^ i * x ^ (2 * (i + (k + 1)) - 1) / ((2 * (i + (k + 1)) - 1).factorial : ℚ)) := by
      intro i
      rw [show i + 1 + k = i + (k + 1) by omega, pow_succ]; ring
    rw [Finset.sum_congr rfl fun i _ => e i, Finset.sum_neg_distrib, ← this]
    obtain ⟨j, rfl⟩ : ∃ j, k = j + 1 := ⟨k - 1, by omega⟩
    rw [show 2 * (j + 1 + 1) - 1 = 2 * j + 1 + 1 + 1 by omega, show 2 * (j + 1) - 1 = 2 * j + 1 by omega,
      Nat.factorial_succ (2 * j + 1 + 1), Nat.factorial_succ (2 * j + 1)]
    have f : ((2 * j + 1).factorial : ℚ) ≠ 0 := by exact_mod_cast Nat.factorial_ne_zero _
    have a : (((2 * j + 1 + 1 + 1 : Nat)) : ℚ) ≠ 0 := by positivity
    have b : (((2 * j + 1 + 1 : Nat)) : ℚ) ≠ 0 := by positivity
    simp only [Nat.zero_add, pow_zero, one_mul]
    rw [show 2 * (j + 1) - 1 = 2 * j + 1 by omega]
    push_cast at a b ⊢
    field_simp
    ring


theorem series_eq (x : ℚ) :
    series x = ∑ i ∈ Finset.range terms, (-1) ^ i * x ^ (2 * i + 1) / ((2 * i + 1).factorial : ℚ) := by
  have h := series_eq_sum x (terms - 1) 1 one_pos
  simp only [Nat.mul_one, show 2 - 1 = 1 from rfl, pow_one, Nat.factorial_one, Nat.cast_one, div_one] at h
  exact h

/-- An alternating series of falling terms is within its first term of 0. -/
theorem abs_alternating_le (f : ℕ → ℝ) (l : ℝ) (hf : Antitone f)
    (h : HasSum (fun i => (-1) ^ i * f i) l) : |l| ≤ f 0 := by
  have ht := h.tendsto_sum_nat
  have h1 := hf.tendsto_le_alternating_series ht 0
  have h2 := hf.alternating_series_le_tendsto ht 0
  simp at h1 h2
  rw [abs_of_nonneg h2]; exact h1

/-- The partial sum of an even number of terms is as close to the real sine as the first term left out. -/
theorem sum_close (x : ℝ) (N : ℕ) (hN : Even N) (h7 : 7 ≤ N) (x0 : 0 ≤ x) (x7 : x ≤ 7) :
    |∑ i ∈ Finset.range N, (-1) ^ i * x ^ (2 * i + 1) / ((2 * i + 1).factorial : ℝ) - Real.sin x|
      ≤ x ^ (2 * N + 1) / ((2 * N + 1).factorial : ℝ) := by
  have h := (hasSum_nat_add_iff' N).2 (Real.hasSum_sin x)
  set f : ℕ → ℝ := fun n => x ^ (2 * (n + N) + 1) / ((2 * (n + N) + 1).factorial : ℝ) with hf
  have e : (fun n => (-1 : ℝ) ^ (n + N) * x ^ (2 * (n + N) + 1) / ((2 * (n + N) + 1).factorial : ℝ))
      = fun n => (-1) ^ n * f n := by
    funext n
    rw [hf, pow_add, hN.neg_one_pow]
    simp only; ring
  have h := abs_alternating_le f _ (antitone_nat_of_succ_le fun n => ?_) (e ▸ h)
  · rw [abs_sub_comm]
    simpa [hf] using h
  · have e2 : 2 * (n + 1 + N) + 1 = 2 * (n + N) + 1 + 1 + 1 := by omega
    simp only [hf, e2]
    rw [Nat.factorial_succ, Nat.factorial_succ, pow_succ, pow_succ]
    have fpos : (0 : ℝ) < ((2 * (n + N) + 1).factorial : ℝ) := by exact_mod_cast Nat.factorial_pos _
    push_cast
    rw [div_le_div_iff₀ (by positivity) fpos]
    have q : x * x ≤ (2 * ((n : ℝ) + N) + 1 + 1 + 1) * (2 * ((n : ℝ) + N) + 1 + 1) := by
      have : (0 : ℝ) ≤ n := by positivity
      have : (7 : ℝ) ≤ N := by exact_mod_cast h7
      nlinarith
    calc _ = x ^ (2 * (n + N) + 1) * ((2 * (n + N) + 1).factorial : ℝ) * (x * x) := by ring
      _ ≤ x ^ (2 * (n + N) + 1) * ((2 * (n + N) + 1).factorial : ℝ) * _ :=
        mul_le_mul_of_nonneg_left q (by positivity)
      _ = _ := by ring

/-- The series is as close to the real sine as its first term left out. -/
theorem series_close (x : ℚ) (h0 : 0 ≤ x) (h7 : x ≤ 7) : |(series x : ℝ) - Real.sin x| ≤ (seriesError x : ℝ) := by
  have h := sum_close (x : ℝ) terms (by decide) (by decide) (by exact_mod_cast h0) (by exact_mod_cast h7)
  have e : (seriesError x : ℝ) = (x : ℝ) ^ (2 * terms + 1) / ((2 * terms + 1).factorial : ℝ) := by
    generalize hN : 2 * terms + 1 = N
    rw [seriesError, hN]
    push_cast; rfl
  rw [series_eq, e]
  generalize terms = N at *
  push_cast
  exact h

theorem factorial_large : 63 ^ 128 * 2 ^ 380 ≤ 10 ^ 128 * Nat.factorial 129 := by decide +kernel

/-- The series' error in the range where the block calls the sine. -/
theorem seriesError_le (x : ℚ) (h0 : 0 ≤ x) (h7 : x ≤ 63 / 10) : seriesError x ≤ x / 2 ^ 380 := by
  have h := factorial_large
  have e : seriesError x = x ^ 129 / ((Nat.factorial 129 : ℕ) : ℚ) := rfl
  have p : x ^ 128 ≤ (63 / 10) ^ 128 := pow_le_pow_left₀ h0 h7 _
  rw [e]
  have f : (0 : ℚ) < ((Nat.factorial 129 : ℕ) : ℚ) := by exact_mod_cast Nat.factorial_pos _
  generalize Nat.factorial 129 = F at *
  generalize hP : 2 ^ 380 = P at h
  have hP' : (2 ^ 380 : ℚ) = (P : ℚ) := by rw [← hP]; push_cast; rfl
  have pp : (0 : ℚ) < P := by rw [← hP']; positivity
  rw [hP', div_le_div_iff₀ f pp]
  have h' : (63 : ℚ) ^ 128 * P ≤ 10 ^ 128 * F := by exact_mod_cast h
  have c : (63 / 10 : ℚ) ^ 128 * P ≤ F := by
    rw [div_pow, div_mul_eq_mul_div, div_le_iff₀ (by positivity), mul_comm (F : ℚ)]; exact h'
  calc x ^ 129 * P = x * (x ^ 128 * P) := by ring
    _ ≤ x * F := mul_le_mul_of_nonneg_left (le_trans (mul_le_mul_of_nonneg_right p pp.le) c) h0


/-! ## The rounded sine is admissible -/

theorem mag_eq_abs (q : ℚ) : mag q = |q| := by
  unfold mag
  split_ifs with h
  · exact (abs_of_neg h).symm
  · exact (abs_of_nonneg (not_lt.1 h)).symm

/-- A unit in the last place is at least the last place of any smaller magnitude. -/
theorem le_ulp (sh : Nat) (w : ℚ) (h : (2 : ℚ) ^ sh * 2 ^ 52 ≤ w * (F64.unitsPerOne : ℚ) ∨ sh = 0) :
    (2 : ℚ) ^ sh / (F64.unitsPerOne : ℚ) ≤ ulp w := by
  unfold ulp
  rw [Rat.mkRat_eq_div]
  have u : (0 : ℚ) < (F64.unitsPerOne : ℚ) := by exact_mod_cast F64.unitsPerOne_pos
  generalize (F64.unitsPerOne : ℚ) = U at *
  refine (div_le_div_iff_of_pos_right u).2 ?_
  rw [Int.cast_natCast]
  have : sh ≤ Nat.log2 (w * U).floor.toNat - 52 := by
    rcases h with h | h
    · have h2 : ((2 ^ (sh + 52) : ℕ) : ℤ) ≤ (w * U).floor := by
        rw [Rat.le_floor_iff]; push_cast; rw [pow_add]; exact h
      have h3 : 2 ^ (sh + 52) ≤ (w * U).floor.toNat := by omega
      have h4 := (Nat.le_log2 (by have := Nat.one_le_two_pow (n := sh + 52); omega)).2 h3
      omega
    · omega
  calc (2 : ℚ) ^ sh ≤ 2 ^ (Nat.log2 (w * U).floor.toNat - 52) := pow_le_pow_right₀ (by norm_num) this
    _ = _ := by push_cast; rfl

/-- Rounding a magnitude below 2 moves it by half a unit in the last place at most. -/
theorem value_ofRat (neg : Bool) (m w : ℚ) (h0 : 0 ≤ m) (h1 : m ≤ 1) (hw : m ≤ w) :
    |F64.value (F64.ofRat neg m) - (if neg then -m else m)| ≤ ulp w := by
  have hq : m.num.natAbs ≤ m.den := by
    have h1 : m.num ≤ m.den := by simpa using (Rat.le_iff m 1).1 h1
    have h2 : 0 ≤ m.num := Rat.num_nonneg.2 h0
    omega
  obtain ⟨sh, n, hb, hn, hn2, hup, hlo, -, hlow⟩ := F64.roundUnits_spec (m.num.natAbs * F64.unitsPerOne) m.den m.den_pos
  have hfin : F64.roundMag (m.num.natAbs * F64.unitsPerOne) m.den < F64.infMag := by
    rw [F64.roundMag_lt_infMag_iff _ _ m.den_pos]
    calc m.num.natAbs * F64.unitsPerOne ≤ m.den * F64.unitsPerOne := Nat.mul_le_mul_right _ hq
      _ < m.den * F64.overflowUnits := Nat.mul_lt_mul_of_pos_left (by decide +kernel) m.den_pos
  have e : F64.roundMag (m.num.natAbs * F64.unitsPerOne) m.den = sh * 2 ^ 52 + n := by
    rw [← hb]
    exact min_eq_left ((min_lt_iff.1 hfin).resolve_right (lt_irrefl _)).le
  have u := F64.unitsPerOne_pos
  have hv : F64.value (F64.ofRat neg m) = (if neg then -1 else 1) * ((n : ℚ) * 2 ^ sh / (F64.unitsPerOne : ℚ)) := by
    rw [F64.value, Rat.mkRat_eq_div, F64.sUnits, F64.ofRat, F64.sign_pack _ _ (F64.roundMag_lt_pow _ _), F64.units,
      F64.magBits_pack _ _ (F64.roundMag_lt_pow _ _), e, F64.unitsOfMag_pack sh n hn hn2]
    generalize F64.unitsPerOne = U
    cases neg
    · push_cast; simp
    · push_cast; simp; ring
  have hm : (m.num.natAbs : ℚ) = m * m.den := by
    rw [Rat.mul_den_eq_num]
    have h2 : 0 ≤ m.num := Rat.num_nonneg.2 h0
    rw [← Int.cast_natCast, Int.natAbs_of_nonneg h2]
  have dp : (0 : ℚ) < m.den := by exact_mod_cast m.den_pos
  refine le_trans ?_ (le_ulp sh w ?_)
  · rw [hv]
    generalize F64.unitsPerOne = U at *
    have u' : (0 : ℚ) < (U : ℚ) := by exact_mod_cast u
    have a : |(n : ℚ) * 2 ^ sh / U - m| ≤ 2 ^ sh / U := by
      have q1 : (2 : ℚ) * (m * m.den * U) ≤ (2 * n + 1) * (m.den * 2 ^ sh) := by rw [← hm]; exact_mod_cast hup
      have q2 : (2 * (n : ℚ)) * (m.den * 2 ^ sh) ≤ 2 * (m * m.den * U) + m.den * 2 ^ sh := by rw [← hm]; exact_mod_cast hlo
      have p : (0 : ℚ) < 2 ^ sh := by positivity
      have k : |(n : ℚ) * 2 ^ sh - m * U| ≤ 2 ^ sh := by
        rw [abs_le]
        constructor
        · have : m * U * (2 * m.den) ≤ (n * 2 ^ sh + 2 ^ sh) * (2 * m.den) := by nlinarith
          linarith [le_of_mul_le_mul_right this (by positivity)]
        · have : (n : ℚ) * 2 ^ sh * (2 * m.den) ≤ (2 ^ sh + m * U) * (2 * m.den) := by nlinarith
          linarith [le_of_mul_le_mul_right this (by positivity)]
      rw [show (n : ℚ) * 2 ^ sh / U - m = (n * 2 ^ sh - m * U) / U by field_simp, abs_div, abs_of_pos u']
      exact (div_le_div_iff_of_pos_right u').2 k
    cases neg
    · simpa using a
    · simp only [if_true]
      rw [show -1 * ((n : ℚ) * 2 ^ sh / U) - -m = -((n : ℚ) * 2 ^ sh / U - m) by ring, abs_neg]; exact a
  · rcases Nat.eq_zero_or_pos sh with h | h
    · exact Or.inr h
    · left
      have := hlow h.ne'
      generalize F64.unitsPerOne = U at *
      have u' : (0 : ℚ) < (U : ℚ) := by exact_mod_cast u
      have q : (2 : ℚ) ^ 52 * (m.den * 2 ^ sh) ≤ m * m.den * U := by rw [← hm]; exact_mod_cast this
      have q2 : ((2 : ℚ) ^ sh * 2 ^ 52) * m.den ≤ (m * U) * m.den := by linarith
      exact le_trans (le_of_mul_le_mul_right q2 dp) (mul_le_mul_of_nonneg_right hw u'.le)

/-- Where the block calls the sine, its argument is in `0 .. 6.3`. -/
theorem inRange_value {x : Binary64} (h : inRange x = true) :
    F64.isFinite x = true ∧ 0 ≤ F64.value x ∧ F64.value x ≤ 63 / 10 := by
  have f0 : F64.isFinite F64.posZero = true ∧ F64.sUnits F64.posZero = 0 := by decide +kernel
  have fp : F64.isFinite Config.twoPi = true ∧ 10 * F64.sUnits Config.twoPi ≤ 63 * F64.unitsPerOne := by decide +kernel
  have kp : F64.orderKey Config.twoPi < (F64.infMag : Int) := by decide +kernel
  have k0 : F64.orderKey F64.posZero = 0 := by decide +kernel
  unfold inRange at h
  rw [Bool.and_eq_true] at h
  obtain ⟨hg, hl⟩ := h
  have fx : F64.isFinite x = true := by
    rw [F64.isFinite_iff]
    simp only [F64.ge, F64.lt, Bool.and_eq_true, decide_eq_true_eq, k0] at hg hl
    have := hl.2.trans kp
    unfold F64.orderKey at *
    split_ifs at * <;> omega
  rw [F64.ge_iff _ _ fx f0.1, f0.2] at hg
  rw [F64.lt_iff _ _ fx fp.1] at hl
  have u : (0 : ℚ) < (F64.unitsPerOne : ℚ) := by exact_mod_cast F64.unitsPerOne_pos
  have c : 10 * F64.sUnits x ≤ 63 * F64.unitsPerOne := by omega
  refine ⟨fx, ?_, ?_⟩ <;> rw [F64.value, Rat.mkRat_eq_div]
  · exact div_nonneg (by exact_mod_cast hg) u.le
  · generalize F64.unitsPerOne = U at *
    rw [div_le_iff₀ u, div_mul_eq_mul_div, le_div_iff₀ (by norm_num)]
    have : (10 : ℚ) * (F64.sUnits x : ℚ) ≤ 63 * U := by exact_mod_cast c
    linarith

/-- The correctly rounded sine is within one unit in the last place of the real one (R15 c). -/
theorem sinRounded_near {x : Binary64} (h : inRange x = true) : near x (sinRounded x) = true := by
  obtain ⟨-, h0, h7⟩ := inRange_value h
  have hc := series_close (F64.value x) h0 (by linarith)
  have he : (0 : ℚ) ≤ seriesError (F64.value x) := by
    unfold seriesError
    exact div_nonneg (pow_nonneg h0 _) (Nat.cast_nonneg _)
  unfold near sinRounded
  rw [if_pos h]
  have h1 : |series (F64.value x)| ≤ 1 + seriesError (F64.value x) := by
    have : |(series (F64.value x) : ℝ)| ≤ 1 + (seriesError (F64.value x) : ℝ) := by
      have h2 := abs_le.1 (Real.abs_sin_le_one (F64.value x : ℝ))
      have h3 := abs_le.1 hc
      rw [abs_le]; constructor <;> linarith [h2.1, h2.2, h3.1, h3.2]
    exact_mod_cast this
  simp only [mag_eq_abs, decide_eq_true_eq]
  generalize series (F64.value x) = t at *
  generalize seriesError (F64.value x) = e at *
  clear h0 h7 hc h
  have m0 : 0 ≤ (if 1 < |t| then (1 : ℚ) else |t|) := by split_ifs <;> positivity
  have m1 : (if 1 < |t| then (1 : ℚ) else |t|) ≤ 1 := by split_ifs <;> linarith
  have mw : (if 1 < |t| then (1 : ℚ) else |t|) ≤ |t| + e := by split_ifs <;> linarith
  have hr := value_ofRat (decide (t < 0)) _ _ m0 m1 mw
  have hd : |(if decide (t < 0) = true then -(if 1 < |t| then (1 : ℚ) else |t|) else if 1 < |t| then 1 else |t|) - t| ≤ e := by
    simp only [decide_eq_true_eq]
    rcases lt_or_ge t 0 with n | n
    · rw [abs_of_neg n] at *
      simp only [n, if_true]
      rw [abs_le]
      split_ifs <;> constructor <;> linarith
    · rw [abs_of_nonneg n] at *
      simp only [not_lt.2 n, if_false]
      rw [abs_le]
      split_ifs <;> constructor <;> linarith
  exact le_trans (abs_sub_le _ _ _) (add_le_add hr hd)

/-- `SIN` has of R15 what `admissible` says, at every finite argument. -/
theorem sin_near {x : Binary64} (h : inRange x = true) : near x (sin x) = true := by
  have hf := (inRange_value h).1
  unfold sin
  cases ha : admissible x (Config.freeSin x)
  · simpa [hf, ha] using sinRounded_near h
  · rw [if_neg (by simp)]
    simp only [admissible, Bool.and_eq_true, Bool.or_eq_true] at ha
    simpa [h] using ha.2

end Sys2Proof.Sine
end

