-- ==== Sys2Proof/Tests/Slice0.lean ====
section
/-! SUPPORT. Small tests, their expected results taken from the spec's tables and vectors, and for each statement a
witness that its hypotheses can be met. -/

-- Each theorem is finished before the next is begun, which keeps the number of threads small.
set_option Elab.async false

namespace Sys2Proof.Tests

open Sys2Proof Sys2Proof.Machine

/-! ## Small states -/

/-- Reset with one waveform selected. -/
def withWave (w : BitVec 2) : State := { State.reset with wave := w }

/-- A request of two frames just started, with one waveform selected. -/
def busy (w : BitVec 2) : State := startRequest 8 (withWave w)

/-- The second frame of that request already taken: nothing remains. -/
def drained : State :=
  { busy 1#2 with
    rnd := { active := true, len := 4, remaining := 0, cursor := 4 }
    out := { len := 4, cells := [(0, 0xC8#8), (1, 0#8), (2, 0xC8#8), (3, 0#8)] } }

/-- The operations of a step, on a given frequency. -/
def triRun (f : Binary64) (t : Tri) : Tri × Int := triOp f 5000 t
def sawRun (f : Binary64) (w : Saw) : Saw × Int := sawOp f 5000 w
def sqrRun (f : Binary64) (q : Sqr) : Sqr × Int := sqrOp f 5000 q

/-! ## WellFormed (R77, R153) -/

theorem test_wf_frequency_nan : (Instr.setFrequency 0x7FF8000000000000#64).wf = false := by decide
theorem test_wf_frequency_infinite : (Instr.setFrequency 0x7FF0000000000000#64).wf = false := by decide
theorem test_wf_frequency_negative : (Instr.setFrequency 0xBFF0000000000000#64).wf = false := by decide
theorem test_wf_frequency_negative_subnormal : (Instr.setFrequency 0x8000000000000001#64).wf = false := by decide
theorem test_wf_frequency_minus_zero : (Instr.setFrequency 0x8000000000000000#64).wf = true := by decide
theorem test_wf_amplitude_zero : (Instr.setAmplitude 0#15).wf = false := by decide
theorem test_wf_amplitude_largest : (Instr.setAmplitude 32767#15).wf = true := by decide

/-! ## Decoding: words written out from R70 to R74, bit by bit -/

/-- Opcode `0x01`, 62 zero bits, kind `10`. -/
theorem test_decode_set_waveform :
    decodeCommand (0b00000001#8 ++ 0#62 ++ 0b10#2) = .ok (.setWaveform 2#2) := by decide

/-- Opcode `0x02`, sign 0, exponent 1031, fraction of 440.0 = 1.71875 * 2^8. -/
theorem test_decode_set_frequency :
    decodeCommand (0b00000010#8 ++ 0b0#1 ++ 0b10000000111#11 ++ 0b1011100000000000#16 ++ 0#36)
      = .ok (.setFrequency 0x407B800000000000#64) := by decide

/-- Opcode `0x03`, 49 zero bits, amplitude 32767. -/
theorem test_decode_set_amplitude :
    decodeCommand (0b00000011#8 ++ 0#49 ++ 0b111111111111111#15) = .ok (.setAmplitude 32767#15) := by decide

/-- Opcode `0x10`, 32 zero bits, length `0x80000004`. -/
theorem test_decode_render :
    decodeCommand (0b00010000#8 ++ 0#32 ++ 0b10000000000000000000000000000100#32)
      = .ok (.render 0x80000004#32) := by decide

theorem test_decode_sine_step : decode (.selector 0b00#2) = .ok .sineStep := by decide
theorem test_decode_tri_step : decode (.selector 0b01#2) = .ok .triStep := by decide
theorem test_decode_saw_step : decode (.selector 0b10#2) = .ok .sawStep := by decide
theorem test_decode_sqr_step : decode (.selector 0b11#2) = .ok .sqrStep := by decide

/-! Refused words (R76; the refused rows of vectors 2.1). -/

theorem test_decode_opcode_04 : decodeCommand 0x040000000000000000#72 = .error .illegalOpcode := by decide
theorem test_decode_opcode_ff : decodeCommand 0xFF0000000000000000#72 = .error .illegalOpcode := by decide
theorem test_decode_waveform_top_bit :
    decodeCommand 0x018000000000000000#72 = .error .reservedOperandBits := by decide
theorem test_decode_render_bit_63 : decodeCommand 0x108000000000000004#72 = .error .reservedOperandBits := by decide
theorem test_decode_amplitude_bit_63 : decodeCommand 0x038000000000000001#72 = .error .illegalAmplitude := by decide
theorem test_decode_frequency_nan : decodeCommand 0x027FF8000000000000#72 = .error .illegalFrequency := by decide

/-- A table word shorter than a command and no selector is an illegal opcode (log entry 12). -/
theorem test_table_short_word : decodeTableWord 8 4 = none := by decide

/-! ## Assembler (R80, R81) -/

theorem test_asm_silence : Assembler.line "silence ; key up".toList = some [0x020000000000000000#72] := by decide +kernel
theorem test_asm_render_frames :
    Assembler.line "RENDER_FRAMES 1073741823".toList = some [0x1000000000FFFFFFFC#72] := by decide +kernel
theorem test_asm_minus_zero :
    Assembler.line "set_frequency -0.0".toList = some [0x028000000000000000#72] := by decide +kernel
theorem test_asm_hex :
    Assembler.line "set_frequency 0x7FF8000000000000".toList = some [0x027FF8000000000000#72] := by decide +kernel
theorem test_asm_amplitude_zero : Assembler.line "set_amplitude 0".toList = none := by decide +kernel

/-! ## binary64 (R12, R13, R14) -/

/-- Ties go to the even significand: 1 + 2^-53 is 1. -/
theorem test_add_tie_to_even : F64.add F64.one 0x3CA0000000000000#64 = F64.one := by decide +kernel
theorem test_div_by_zero_is_infinite : F64.div F64.one F64.posZero = 0x7FF0000000000000#64 := by decide +kernel
theorem test_trunc_toward_zero : F64.truncInt 0xBFE6666666666666#64 = 0 := by decide +kernel
theorem test_trunc_312 : F64.truncInt 0x40738E6666666666#64 = 312 := by decide +kernel

/-! ## Step operations (vectors 2.2 to 2.6) -/

theorem test_half_period_262 : halfPeriod 0x4070680000000000#64 = 84 := by decide +kernel
theorem test_period_above_sample_rate : period 0x40E588A000000000#64 = 0 := by decide +kernel

/-- 440 Hz from reset: 313, with the correctly rounded sine (worked example of R104). -/
theorem test_sine_step :
    sineOp Sine.sinRounded 0x407B800000000000#64 5000 F64.posZero = (0x3FB00C6938F15E29#64, 313) := by decide +kernel

/-- 22050 Hz, second step: the sum is exactly `TWO_PI` and wraps to `+0.0` (R106). -/
theorem test_sine_step_wraps :
    sineOp Sine.sinRounded 0x40D5888000000000#64 5000 0x400921FB54442D18#64 = (F64.posZero, 0) := by decide +kernel

/-- 262.5 Hz, step 43: the stored level passes the amplitude, the output is clamped, the sign turns (R109). -/
theorem test_tri_step_overshoot :
    triRun 0x4070680000000000#64 { level := 4998, sign := .plus } = ({ level := 5117, sign := .minus }, 5000) := by
  decide +kernel

/-- 440 Hz, step 75: the sign turns at the bottom (R109). -/
theorem test_tri_step_turns_up :
    triRun 0x407B800000000000#64 { level := -4800, sign := .minus } = ({ level := -5000, sign := .plus }, -5000) := by
  decide +kernel

/-- 441 Hz, step 50: the sum reaches the amplitude and wraps (R112). -/
theorem test_saw_step_wraps :
    sawRun 0x407B900000000000#64 { level := 4900 } = ({ level := -5000 }, -5000) := by decide +kernel

/-- The amplitude lowered to 100 while the level is -5000 (vector 2.5). -/
theorem test_saw_step_clamps :
    sawOp 0x407B900000000000#64 100 { level := -5000 } = ({ level := -4998 }, -100) := by decide +kernel

/-- 440 Hz from reset: the sign flips before the output (R113). -/
theorem test_sqr_step_first :
    sqrRun 0x407B800000000000#64 { sign := .plus, count := 0 } = ({ sign := .minus, count := 1 }, -5000) := by
  decide +kernel

/-- 882 Hz after 30 steps at 440 Hz: `c = 30 mod 25 = 5`, no flip (R115). -/
theorem test_sqr_step_after_change :
    sqrRun 0x408B900000000000#64 { sign := .minus, count := 30 } = ({ sign := .minus, count := 6 }, -5000) := by
  decide +kernel

/-! ## Render path and parameter writes (vectors 2.7, 2.8) -/

theorem test_render_16 :
    ∃ t, exec (.render 16#32) State.reset = .next t ∧
      t.rnd = { active := true, len := 16, remaining := 4, cursor := 0 } := ⟨_, rfl, by decide⟩

theorem test_render_6_is_silence :
    ∃ t, exec (.render 6#32) State.reset = .next t ∧ t.rnd = State.reset.rnd ∧
      t.returned = [{ len := 6, cells := [(0, 0#8), (1, 0#8), (2, 0#8), (3, 0#8), (4, 0#8), (5, 0#8)] }] :=
  ⟨_, rfl, by decide, by decide⟩

/-- The bytes of -5000 are `78 EC` in both channels (program P2). -/
theorem test_frame_square :
    ∃ t, exec .frame (busy 3#2) = .next t ∧ t.rnd.cursor = 4 ∧ t.rnd.remaining = 1 ∧
      t.out.cells = [(0, 0x78#8), (1, 0xEC#8), (2, 0x78#8), (3, 0xEC#8)] :=
  ⟨_, rfl, by decide +kernel, by decide +kernel, by decide +kernel⟩

theorem test_frame_idle_is_refused : exec .frame State.reset = .refused .notEnabled := rfl

theorem test_complete :
    ∃ t, exec .complete drained = .next t ∧ t.rnd.active = false ∧ t.returned = [drained.out] :=
  ⟨_, rfl, by decide, by decide⟩

theorem test_set_waveform : exec (.setWaveform 3#2) State.reset = .next (withWave 3#2) := rfl

theorem test_set_frequency_minus_zero :
    ∃ t, exec (.setFrequency 0x8000000000000000#64) State.reset = .next t ∧ t.freq = 0x8000000000000000#64 :=
  ⟨_, rfl, by decide⟩

theorem test_set_amplitude :
    ∃ t, exec (.setAmplitude 32767#15) State.reset = .next t ∧ t.amp = 32767#15 := ⟨_, rfl, by decide⟩

/-! ## The step -/

theorem test_step_places_a_command :
    ∃ t, step (State.reset.withFetchWord 72 0x100000000000000010) = .next t ∧ t.rnd.active = true :=
  ⟨_, rfl, by decide +kernel⟩

/-- TRI_STEP as the first instruction after reset: 200 (worked example of R108). -/
theorem test_step_places_a_selector :
    ∃ t, step (State.reset.withFetchWord 8 1) = .next t ∧ t.sample = 200 ∧ t.tri = { level := 200, sign := .plus } :=
  ⟨_, rfl, by decide +kernel, by decide +kernel⟩

theorem test_step_refuses_busy :
    step { busy 0#2 with inputs := [.command 0x100000000000000010#72] } = .refused .renderBusy := rfl

/-! ## The invariant holds of small states -/

theorem reset_inv : State.reset.Inv := by
  refine ⟨by decide +kernel, by decide +kernel, ?_, ?_, ?_, ?_, fun hx => (nomatch hx), by decide +kernel,
    fun _ hb => (nomatch hb)⟩
  · unfold phaseOk; decide +kernel
  · unfold triOk; decide +kernel
  · unfold sawOk; decide +kernel
  · unfold rndOk; decide +kernel

theorem busy_inv (w : BitVec 2) : (busy w).Inv := by
  obtain ⟨h1, h2, h3, h4, h5, -, -, -, -⟩ := reset_inv
  refine ⟨h1, h2, h3, h4, h5, ?_, fun _ => ?_, ?_, fun _ hb => (nomatch hb)⟩
  · exact ⟨show 8 < 2 ^ 32 by decide, show 2 < 2 ^ 30 by decide, show 0 ≤ 8 by decide⟩
  · exact ⟨show 8 % 4 = 0 from rfl, show 0 + 4 * 2 = 8 from rfl, rfl, rfl⟩
  · exact ⟨List.Pairwise.nil, fun _ hc => nomatch hc⟩

theorem busy_stereo (w : BitVec 2) : (busy w).Stereo := ⟨fun _ _ => ⟨rfl, rfl⟩, fun _ hb => nomatch hb⟩

theorem busy_frame (w : BitVec 2) : exec .frame (busy w) = .next (frameNext (busy w)) := by
  show execFrame (busy w) = _
  rw [execFrame_eq, if_pos (show frameEnabled (busy w) = true from rfl),
    if_pos (show (busy w).rnd.cursor + 4 ≤ (busy w).out.len by show 0 + 4 ≤ 8; decide)]

theorem busy_step (w : BitVec 2) : step (busy w) = .next (frameNext (busy w)) := busy_frame w

theorem drained_inv : drained.Inv := by
  obtain ⟨h1, h2, h3, h4, h5, -, -, -, -⟩ := reset_inv
  refine ⟨h1, h2, h3, h4, h5, ?_, fun _ => ?_, by decide +kernel, fun _ hb => (nomatch hb)⟩
  · exact ⟨show 4 < 2 ^ 32 by decide, show 0 < 2 ^ 30 by decide, show 4 ≤ 4 by decide⟩
  · refine ⟨rfl, rfl, rfl, ?_⟩
    show List.map Prod.fst drained.out.cells = List.range 4
    decide

/-! ## Witnesses: each statement's hypotheses can be met -/

theorem witness_ArithmeticIsCorrectlyRounded :
    (0 < 1 ∧ F64.overflowUnits - 1 < 1 * F64.overflowUnits ∧ 1 * F64.overflowUnits ≤ F64.overflowUnits) ∧
    (F64.isFinite F64.one = true ∧ F64.isFinite 0xBFF0000000000000#64 = true ∧
      F64.sUnits F64.one + F64.sUnits F64.one ≠ 0 ∧ F64.sUnits F64.one + F64.sUnits 0xBFF0000000000000#64 = 0 ∧
      F64.units F64.one ≠ 0) := by decide +kernel

theorem witness_ComparisonsFollowTheReals :
    F64.isFinite F64.posZero = true ∧ F64.isFinite 0x7FEFFFFFFFFFFFFF#64 = true ∧
    (F64.isNaN F64.nan = true ∨ F64.isNaN F64.one = true) := by decide +kernel

theorem witness_IntegersConvertExactly : (65534 : Int).natAbs ≤ 65534 ∧ (-65534 : Int).natAbs ≤ 65534 := by decide

theorem witness_RemainderIsExact :
    F64.isFinite 0x401C000000000000#64 = true ∧ F64.isFinite Config.twoPi = true ∧
    0 ≤ F64.value 0x401C000000000000#64 ∧ 0 < F64.value Config.twoPi := by decide +kernel

theorem witness_FloorAndTruncation :
    (F64.isFinite F64.negZero = true ∧ 0 ≤ F64.value F64.negZero) ∧
    (F64.isFinite 0xBFE0000000000000#64 = true ∧ ¬ 0 ≤ F64.value 0xBFE0000000000000#64) := by decide +kernel

theorem witness_SineIsBoundedAndExactAtZero : F64.isFinite 0x7FEFFFFFFFFFFFFF#64 = true := by decide +kernel

theorem witness_SineIsWithinOneUnitOfTheRealSine :
    Sine.inRange F64.posZero = true ∧ Sine.inRange 0x401921FB54442D17#64 = true := by decide +kernel

theorem witness_StepKeepsTheInvariant : (busy 0#2).Inv ∧ step (busy 0#2) = .next (frameNext (busy 0#2)) :=
  ⟨busy_inv _, busy_step _⟩

theorem witness_StepKeepsTheChannelsEqual :
    (busy 1#2).Inv ∧ (busy 1#2).Stereo ∧ step (busy 1#2) = .next (frameNext (busy 1#2)) :=
  ⟨busy_inv _, busy_stereo _, busy_step _⟩

theorem witness_StepKeepsMemoryCanonical :
    (busy 2#2).MemoryCanonical ∧ step (busy 2#2) = .next (frameNext (busy 2#2)) :=
  ⟨⟨(busy_inv _).out, fun _ hb => nomatch hb⟩, busy_step _⟩

theorem witness_MemWriteIsLittleEndian :
    (2 + 2 ≤ (Buffer.mk 4 []).len) ∧ ((Buffer.mk 4 []).len < 3 + 2) ∧ 0 < 2 ∧ (1 < 2 ∨ 2 + 2 ≤ 1) := by decide

theorem witness_AgentsKeepToTheirState :
    (exec (.setWaveform 1#2) State.reset = .next (withWave 1#2) ∧ agentOf (.setWaveform 1#2) = .control) ∧
    (exec (.render 8#32) (withWave 1#2) = .next (busy 1#2) ∧ agentOf (.render 8#32) = .audioHost) ∧
    (exec .frame (busy 1#2) = .next (frameNext (busy 1#2)) ∧ agentOf .frame = .renderEngine) :=
  ⟨⟨rfl, rfl⟩, ⟨rfl, rfl⟩, busy_frame _, rfl⟩

theorem witness_ParameterWriteReachesLaterFramesOnly :
    decodeCommand 0x010000000000000003#72 = .ok (.setWaveform 3#2) ∧ agentOf (.setWaveform 3#2) = .control ∧
    frameEnabled (busy 1#2) = true ∧ (busy 1#2).rnd.cursor + 4 ≤ (busy 1#2).out.len := by decide

theorem witness_DecodeOfEncode :
    (Instr.setFrequency F64.negZero).wf = true ∧
    encode (.setFrequency F64.negZero) = some (.command 0x028000000000000000#72) := by decide

theorem witness_DecodedWordsAreEncodings :
    decode (.command 0x10000000000000000A#72) = .ok (.render 10#32) := by decide

theorem witness_DegenerateFrequencies :
    F64.legalFreq 0x0000000000000001#64 = true ∧ F64.eq 0x0000000000000001#64 F64.posZero = false ∧
    F64.legalFreq 0x7FEFFFFFFFFFFFFF#64 = true ∧ F64.eq 0x7FEFFFFFFFFFFFFF#64 F64.posZero = false := by decide +kernel

theorem witness_SineStepAdvancesThePhase :
    (F64.eq F64.negZero F64.posZero = true) ∧
    (F64.isFinite (F64.div (F64.mul Config.twoPi 0x7FC45F306DC9C883#64) Config.fs) = false) ∧
    (F64.eq 0x7FC45F306DC9C882#64 F64.posZero = false ∧
      F64.isFinite (F64.div (F64.mul Config.twoPi 0x7FC45F306DC9C882#64) Config.fs) = true) := by decide +kernel

theorem witness_SineStepKeepsThePhaseInRange : F64.legalFreq State.reset.freq = true ∧ phaseOk State.reset.theta :=
  ⟨reset_inv.freqLegal, reset_inv.phase⟩

theorem witness_RemainderIsOneSubtractionBelowTwoTurns :
    F64.ge Config.twoPi Config.twoPi = true ∧ F64.lt Config.twoPi (F64.mul F64.two Config.twoPi) = true := by
  decide +kernel

theorem witness_TriStepMovesTheLevel :
    halfPeriod 0x40D588C000000000#64 = 0 ∧ halfPeriod 0x40D5888000000000#64 ≠ 0 := by decide +kernel

theorem witness_SawStepMovesTheLevel :
    (∃ s : State, s.freq = 0x407B900000000000#64 ∧ s.amp = 5000#15 ∧ s.saw = { level := 0 }) ∧
    period 0x40E588A000000000#64 = 0 ∧ period 0x40E5888000000000#64 ≠ 0 :=
  ⟨⟨State.reset.putFreq 0x407B900000000000#64, rfl, rfl, rfl⟩, by decide +kernel⟩

theorem witness_SqrStepCountsAndFlips : halfPeriod F64.negZero = 0 ∧ halfPeriod 0x40D5888000000000#64 ≠ 0 := by
  decide +kernel

theorem witness_SamplesNeverExceedTheAmplitude : (busy 0#2).Inv ∧ exec .sineStep (busy 0#2) = .next (sineStep (busy 0#2)) :=
  ⟨busy_inv _, rfl⟩

theorem witness_LevelsStayBounded :
    State.reset.amp ≠ 0#15 ∧ triOk State.reset.tri ∧ sawOk State.reset.saw ∧
    exec .triStep State.reset = .next (triStep State.reset) ∧ exec .sawStep State.reset = .next (sawStep State.reset) ∧
    exec .sqrStep State.reset = .next (sqrStep State.reset) :=
  ⟨reset_inv.ampPositive, reset_inv.tri, reset_inv.saw, rfl, rfl, rfl⟩

theorem witness_SquareAgreesWithThePerCallFormula : halfPeriod State.reset.freq ≠ 0 := by decide +kernel

theorem witness_RenderStartsARequest :
    (busy 0#2).rnd.active = true ∧ State.reset.rnd.active = false ∧ (4294967292#32).toNat % 4 = 0 ∧
    (4294967295#32).toNat % 4 ≠ 0 := by decide

theorem witness_MalformedRequestIsSilence : State.reset.rnd.active = false ∧ (1#32).toNat % 4 ≠ 0 := by decide

theorem witness_RenderOfZeroCompletesAtOnce : State.reset.rnd.active = false := by decide

theorem witness_FrameWritesTheSelectedSampleToBothChannels :
    frameEnabled (busy 0#2) = true ∧ (busy 0#2).rnd.cursor + 4 ≤ (busy 0#2).out.len := by decide

theorem witness_FrameBytesAreTheSample :
    (busy 0#2).Inv ∧ exec .frame (busy 0#2) = .next (frameNext (busy 0#2)) := ⟨busy_inv _, busy_frame _⟩

theorem witness_EngineStepsStopOutsideTheirCondition :
    (frameEnabled { busy 0#2 with out := { len := 3, cells := [] } } = true ∧ 3 < (busy 0#2).rnd.cursor + 4) ∧
    frameEnabled drained = false ∧ completeEnabled (busy 0#2) = false := by decide

theorem witness_FrameIgnoresUnselectedOscillators (w : BitVec 2) :
    exec .frame (busy w) = .next (frameNext (busy w)) ∧ (busy w).wave = w := ⟨busy_frame w, rfl⟩

theorem witness_OnlyTheSelectedOscillatorMoves :
    step (busy 3#2) = .next (frameNext (busy 3#2)) ∧ (busy 3#2).inputs.head? ≠ some .reset ∧
    (busy 3#2).wave ≠ 0#2 ∧ (busy 3#2).wave ≠ 1#2 ∧ (busy 3#2).wave ≠ 2#2 ∧ (busy 2#2).wave ≠ 3#2 :=
  ⟨busy_step _, by decide, by decide, by decide, by decide, by decide⟩

theorem witness_CompleteReturnsTheBuffer : completeEnabled drained = true := by decide

theorem witness_ReturnedBufferIsFullyWritten :
    drained.Inv ∧ ∃ t, exec .complete drained = .next t := ⟨drained_inv, _, rfl⟩

theorem witness_RenderingIsSplitInvariant :
    State.reset.Inv ∧ State.reset.rnd.active = false ∧ 2 ^ 29 + (2 ^ 29 - 1) < 2 ^ 30 := ⟨reset_inv, rfl, by decide⟩

theorem witness_RequestCompletesAfterItsFrames :
    ∃ s : State, s.Inv ∧ s.rnd.active = false ∧ (16#32).toNat % 4 = 0 ∧
      s.inputs = [.command (Operands.command 0x10#8 ((16#32).setWidth 64))] := by
  refine ⟨State.reset.putInputs [.command (Operands.command 0x10#8 ((16#32).setWidth 64))], ?_, rfl, rfl, rfl⟩
  obtain ⟨h1, h2, h3, h4, h5, h6, h7, h8, h9⟩ := reset_inv
  exact ⟨h1, h2, h3, h4, h5, h6, h7, h8, h9⟩

theorem witness_RequestAdvancesUnderAnyInterleaving :
    ((busy 1#2).putInputs [.engine, .command 0x010000000000000003#72, .engine]).Inv ∧
    ((busy 1#2).putInputs [.engine, .command 0x010000000000000003#72, .engine]).rnd.active = true ∧
    (∀ m ∈ [Turn.engine, .command 0x010000000000000003#72, .engine], m.Racing) ∧
    [Turn.engine, .command 0x010000000000000003#72, .engine].count .engine ≤ (busy 1#2).rnd.remaining := by
  obtain ⟨h1, h2, h3, h4, h5, h6, h7, h8, h9⟩ := busy_inv 1#2
  refine ⟨⟨h1, h2, h3, h4, h5, h6, h7, h8, h9⟩, rfl, fun m hm => ?_, by decide⟩
  simp only [List.mem_cons, List.not_mem_nil, or_false] at hm
  rcases hm with rfl | rfl | rfl
  · exact Or.inl rfl
  · exact Or.inr ⟨_, .setWaveform 3#2, rfl, by decide, rfl⟩
  · exact Or.inl rfl

theorem witness_SetWaveformWritesWave : (4#64).extractLsb' 2 62 ≠ 0#62 := by decide

theorem witness_SetFrequencyWritesFreq :
    F64.legalFreq 0x7FEFFFFFFFFFFFFF#64 = true ∧ F64.legalFreq 0x8000000000000001#64 = false := by decide

theorem witness_SetAmplitudeWritesAmp :
    32767#15 ≠ 0#15 ∧ (1 ≤ (32767#64).toNat ∧ (32767#64).toNat ≤ 32767) ∧
    ((0#64).toNat = 0 ∨ 32767 < (0#64).toNat) ∧ ((32768#64).toNat = 0 ∨ 32767 < (32768#64).toNat) := by decide

theorem witness_SilenceHoldsEveryOscillator :
    ({ State.reset with freq := F64.negZero } : State).freq = F64.posZero ∨
    ({ State.reset with freq := F64.negZero } : State).freq = F64.negZero := Or.inr rfl

theorem witness_StepRunsTheDecodedCommand :
    (State.reset.putInputs [.command 0x10000000000000000A#72]).inputs = .command 0x10000000000000000A#72 :: [] ∧
    decodeCommand 0x10000000000000000A#72 = .ok (.render 10#32) ∧
    decodeCommand 0x000000000000000000#72 = .error .illegalOpcode := by decide +kernel

theorem witness_StepRunsTheRenderEngine :
    ((busy 0#2).inputs = [] ∧ (busy 0#2).rnd.active = true ∧ 0 < (busy 0#2).rnd.remaining) ∧
    (drained.inputs = [] ∧ drained.rnd.active = true ∧ drained.rnd.remaining = 0) ∧
    ((State.reset.putInputs [.engine]).inputs = .engine :: [] ∧ State.reset.rnd.active = false) := by decide +kernel

theorem witness_PlacedInstructionRunsNext :
    decodeTableWord 72 0x030000000000001388 = some (.setAmplitude 5000#15) ∧ 0x030000000000001388 < 2 ^ 72 ∧ 3 < 4 := by
  decide

theorem witness_StepStopsOnlyForANamedReason : (busy 0#2).Inv := busy_inv _

theorem witness_RunOverKeepsTheState : State.reset.RunOver := ⟨rfl, rfl⟩

theorem witness_ResetSignalRestoresTheResetState :
    ({ drained with rnd := { drained.rnd with active := false }, inputs := [.reset] } : State).inputs = .reset :: [] ∧
    ({ drained with rnd := { drained.rnd with active := false }, inputs := [.reset] } : State).rnd.active = false :=
  ⟨rfl, rfl⟩

end Sys2Proof.Tests
end

section
/-! SUPPORT. The statements of 00_scope.md: binary64 arithmetic against the rationals (R12 to R14), the sine (R15),
`MemWrite` (R9) and the bound of every sample (R34). -/

set_option Elab.async false

namespace Sys2Proof.F64

/-! ## The real value of an encoding -/

theorem unitsPerOne_cast_pos : (0 : ℚ) < (unitsPerOne : ℚ) := by exact_mod_cast unitsPerOne_pos

theorem value_eq_div (x : Binary64) : value x = (sUnits x : ℚ) / unitsPerOne := Rat.mkRat_eq_div _ _

theorem value_lt_iff (a b : Binary64) : value a < value b ↔ sUnits a < sUnits b := by
  rw [value_eq_div, value_eq_div, div_lt_div_iff_of_pos_right unitsPerOne_cast_pos, Int.cast_lt]

theorem value_le_iff (a b : Binary64) : value a ≤ value b ↔ sUnits a ≤ sUnits b := by
  rw [← not_lt, value_lt_iff, not_lt]

theorem value_inj (a b : Binary64) : value a = value b ↔ sUnits a = sUnits b := by
  rw [le_antisymm_iff, value_le_iff, value_le_iff, ← le_antisymm_iff]

theorem value_of_sign_false {x : Binary64} (h : sign x = false) : value x = (units x : ℚ) / unitsPerOne := by
  rw [value_eq_div, sUnits, h, if_neg Bool.false_ne_true, Int.cast_natCast]

theorem value_of_sign_true {x : Binary64} (h : sign x = true) : value x = -((units x : ℚ) / unitsPerOne) := by
  rw [value_eq_div, sUnits, h, if_pos rfl, Int.cast_neg, Int.cast_natCast, neg_div]

theorem abs_value (x : Binary64) : |value x| = (units x : ℚ) / unitsPerOne := by
  have h0 : (0 : ℚ) ≤ (units x : ℚ) / unitsPerOne := div_nonneg (Nat.cast_nonneg _) unitsPerOne_cast_pos.le
  cases h : sign x
  · rw [value_of_sign_false h, abs_of_nonneg h0]
  · rw [value_of_sign_true h, abs_neg, abs_of_nonneg h0]

/-- The sign bit does not count in a value that is not negative: it can be set only in `-0.0`. -/
theorem value_of_nonneg {x : Binary64} (h : 0 ≤ value x) : value x = (units x : ℚ) / unitsPerOne := by
  rw [← abs_value, abs_of_nonneg h]

/-- The one negative encoding of a value that is not negative is zero. -/
theorem units_eq_zero_of_sign_true {x : Binary64} (hs : sign x = true) (h : 0 ≤ value x) : units x = 0 := by
  have h1 := value_of_nonneg h
  rw [value_of_sign_true hs, neg_eq_self, div_eq_zero_iff] at h1
  exact_mod_cast h1.resolve_right unitsPerOne_cast_pos.ne'

theorem magBits_ne_zero_of_units {x : Binary64} (h : units x ≠ 0) : magBits x ≠ 0 := fun h0 =>
  h (by rw [units, h0, unitsOfMag_zero])

/-! ## Correct rounding (R12) -/

/-- From the overflow bound on the rounded magnitude is the infinity. -/
theorem roundMag_eq_infMag {num den : Nat} (hd : 0 < den) (h : den * overflowUnits ≤ num) :
    roundMag num den = infMag :=
  le_antisymm (roundMag_le _ _) (not_lt.1 fun hlt => not_lt.2 h ((roundMag_lt_infMag_iff num den hd).1 hlt))

/-- A rounded magnitude packed with a sign reads back as both. -/
theorem magBits_sign_of_pack {x : Binary64} {neg : Bool} {num den : Nat} (h : x = pack neg (roundMag num den)) :
    magBits x = roundMag num den ∧ sign x = neg := by
  subst h
  exact ⟨magBits_pack _ _ (roundMag_lt_pow _ _), sign_pack _ _ (roundMag_lt_pow _ _)⟩

theorem add_of_sum_eq_zero {a b : Binary64} (ha : isFinite a = true) (hb : isFinite b = true) (h : sUnits a + sUnits b = 0) :
    add a b = if sign a = true ∧ sign b = true then negZero else posZero := by
  simp [add, isNaN_of_isFinite ha, isNaN_of_isFinite hb, isInf_of_isFinite ha, isInf_of_isFinite hb, h]

/-! ## Remainder, floor and truncation (R13, R14) -/

/-- The floor of a ratio of two magnitudes is their quotient. -/
theorem floor_units_div (x : Binary64) : ⌊(units x : ℚ) / unitsPerOne⌋ = (units x / unitsPerOne : Nat) := by
  rw [Rat.floor_natCast_div_natCast, Int.natCast_div]

/-- The remainder of operands that are not negative, as a ratio of exact counts. -/
theorem value_rem {x y : Binary64} (hx : isFinite x = true) (hy : isFinite y = true) (hx0 : 0 ≤ value x)
    (hy0 : magBits y ≠ 0) : value (rem x y) = ((units x % units y : Nat) : ℚ) / unitsPerOne := by
  obtain ⟨-, hu, hs, -⟩ := rem_spec x y hx hy hy0
  cases h : sign x
  · rw [value_of_sign_false (hs.trans h), hu]
  · rw [value_of_sign_true (hs.trans h), hu, units_eq_zero_of_sign_true h hx0, Nat.zero_mod, Nat.cast_zero, zero_div,
      neg_zero]

theorem floorInt_eq_floor {x : Binary64} (h : 0 ≤ value x) : (floorInt x : Int) = ⌊value x⌋ := by
  rw [value_of_nonneg h, floor_units_div, floorInt]
  cases hs : sign x
  · rfl
  · simp [units_eq_zero_of_sign_true hs h]

/-- On a value that is not negative the two discard the same fraction. -/
theorem truncInt_eq_floorInt {x : Binary64} (h : 0 ≤ value x) : truncInt x = floorInt x := by
  rw [truncInt, floorInt]
  cases hs : sign x
  · rfl
  · simp [units_eq_zero_of_sign_true hs h]

theorem truncInt_eq_ceil {x : Binary64} (h : value x < 0) : truncInt x = ⌈value x⌉ := by
  have hs : sign x = true := by
    by_contra hs
    rw [value_of_sign_false (Bool.eq_false_iff.2 hs)] at h
    exact not_lt.2 (div_nonneg (Nat.cast_nonneg _) unitsPerOne_cast_pos.le) h
  rw [value_of_sign_true hs, Int.ceil_neg, floor_units_div, truncInt, hs]
  rfl

/-! ## Integers (R12) -/

theorem value_ofInt (n : Int) (h : n.natAbs < 2 ^ 53) : value (ofInt n) = n := by
  obtain ⟨-, hs, hu⟩ := ofInt_spec n h
  have e : sUnits (ofInt n) = n * unitsPerOne := by
    rw [sUnits, hs, hu]
    generalize unitsPerOne = U
    rcases lt_or_ge n 0 with hn | hn
    · simp [hn, abs_of_neg hn]
    · simp [not_lt.2 hn, abs_of_nonneg hn]
  rw [value_eq_div, e, Int.cast_mul, Int.cast_natCast, mul_div_cancel_right₀ _ unitsPerOne_cast_pos.ne']

/-- A magnitude of at most 1.0 is a value in `-1 .. 1`. -/
theorem abs_value_le_one {x : Binary64} (h : units x ≤ unitsPerOne) : |value x| ≤ 1 := by
  rw [abs_value, div_le_one unitsPerOne_cast_pos]
  exact_mod_cast h

end Sys2Proof.F64

namespace Sys2Proof.Sine

/-! ## The sine (R15) -/

theorem sinRounded_posZero : sinRounded F64.posZero = F64.posZero := by decide +kernel

theorem sin_posZero : sin F64.posZero = F64.posZero := by
  have hf : F64.isFinite F64.posZero = true := by decide
  unfold sin
  cases h : admissible F64.posZero (Config.freeSin F64.posZero)
  · simpa [hf] using sinRounded_posZero
  · simp only [admissible, Bool.and_eq_true, Bool.or_eq_true, bne_self_eq_false, Bool.false_eq_true, false_or,
      beq_iff_eq] at h
    obtain ⟨⟨-, hzero⟩, -⟩ := h
    simpa using hzero

/-- Where the block calls the sine, the series' error is within the model's slack (log entry 7). -/
theorem seriesError_le_of_inRange {x : Binary64} (h : inRange x = true) :
    (seriesError (F64.value x) : ℝ) ≤ (F64.value x : ℝ) / 2 ^ 380 := by
  obtain ⟨-, h0, h63⟩ := inRange_value h
  have he := (Rat.cast_le (K := ℝ)).2 (seriesError_le _ h0 h63)
  rwa [Rat.cast_div, Rat.cast_pow, Rat.cast_ofNat] at he

/-- `near` over the reals: within one unit in the last place of the series, up to the series' error. -/
theorem abs_value_sub_series_le {x r : Binary64} (h : near x r = true) :
    |(F64.value r : ℝ) - series (F64.value x)|
      ≤ ulp (|series (F64.value x)| + seriesError (F64.value x)) + seriesError (F64.value x) := by
  simp only [near, mag_eq_abs, decide_eq_true_eq] at h
  exact_mod_cast h

end Sys2Proof.Sine

namespace Sys2Proof.Machine

/-! ## `MemWrite` (R9) -/

@[simp] theorem littleEndian_length (n : Nat) (v : Int) : (littleEndian n v).length = n := by
  induction n generalizing v with
  | zero => rfl
  | succ n ih => simp [littleEndian, ih]

/-- Byte `i` of the little-endian representation is bits `8i+7 .. 8i`. -/
theorem littleEndian_getElem? {n i : Nat} (v : Int) (h : i < n) :
    (littleEndian n v)[i]? = some (BitVec.ofInt 8 (v / 2 ^ (8 * i))) := by
  induction n generalizing v i with
  | zero => omega
  | succ n ih =>
    cases i with
    | zero => simp [littleEndian]
    | succ i =>
      have e : v / 256 / 2 ^ (8 * i) = v / 2 ^ (8 * (i + 1)) := by
        rw [Int.ediv_ediv_of_nonneg (by norm_num), show (256 : Int) = 2 ^ 8 by norm_num, ← pow_add]
        congr 2; omega
      simpa [littleEndian, e] using ih (v / 256) (by omega : i < n)

theorem Memory.read_writeBytes_outside (m : Memory) {a x : Nat} (bytes : List Byte)
    (h : x < a ∨ a + bytes.length ≤ x) : (Memory.writeBytes m a bytes).read x = m.read x := by
  induction bytes generalizing m a with
  | nil => rfl
  | cons v rest ih =>
    rw [List.length_cons] at h
    rw [Memory.writeBytes, ih _ (by omega), Memory.read_write_other _ _ (by omega)]

theorem Memory.read_writeBytes_inside (m : Memory) (a : Nat) {bytes : List Byte} {i : Nat} (h : i < bytes.length) :
    (Memory.writeBytes m a bytes).read (a + i) = bytes[i]? := by
  induction bytes generalizing m a i with
  | nil => exact absurd h (Nat.not_lt_zero i)
  | cons v rest ih =>
    rw [Memory.writeBytes]
    cases i with
    | zero =>
      rw [Memory.read_writeBytes_outside _ _ (by omega), Nat.add_zero, Memory.read_write_same, List.getElem?_cons_zero]
    | succ i =>
      rw [List.length_cons] at h
      rw [List.getElem?_cons_succ, ← ih (Memory.write m a v) (a + 1) (by omega : i < rest.length)]
      congr 1; omega

/-! ## Samples (R16, R34) -/

/-- The sine's sample is the one of a frame with `WAVE` at code 0, which the invariant does not speak of. -/
theorem sineStep_sample {s : State} (h : s.Inv) :
    -(s.amp.toNat : Int) ≤ (sineStep s).sample ∧ (sineStep s).sample ≤ s.amp.toNat := by
  have hw : (s.putWave 0#2).Inv :=
    ⟨h.freqLegal, h.ampPositive, h.phase, h.tri, h.saw, h.rnd, h.request, h.out, h.returned⟩
  exact stepSelected_sample (s.putWave 0#2) hw

end Sys2Proof.Machine

namespace Sys2Proof.Scope

open Sys2Proof.F64 Sys2Proof.Machine

/-- Settles O1: each operation packs a sign and one rounded magnitude, and rounding is to the nearest, ties to even,
up to the overflow bound. -/
theorem arithmeticIsCorrectlyRounded : Obligations.ArithmeticIsCorrectlyRounded := by
  unfold Obligations.ArithmeticIsCorrectlyRounded
  refine ⟨fun num den hd => ⟨fun h => ?_, roundMag_eq_infMag hd⟩, fun a b ha hb => ?_⟩
  · exact roundMag_nearestEven num den hd ((roundMag_lt_infMag_iff num den hd).2 h)
  · obtain ⟨mulMag, mulSign⟩ := magBits_sign_of_pack (mul_finite a b ha hb)
    exact ⟨fun h => magBits_sign_of_pack (add_finite a b ha hb h), add_of_sum_eq_zero ha hb, mulMag, mulSign,
      fun h => magBits_sign_of_pack (div_finite a b ha hb (magBits_ne_zero_of_units h))⟩

/-- Settles O2: the order of the encodings is that of the exact counts, and so of the values. -/
theorem comparisonsFollowTheReals : Obligations.ComparisonsFollowTheReals := by
  unfold Obligations.ComparisonsFollowTheReals
  refine ⟨fun a b ha hb => ⟨?_, ?_, ?_⟩, fun a b h => ?_, by decide⟩
  · rw [lt_iff a b ha hb, value_lt_iff]
  · rw [ge_iff a b ha hb, value_le_iff]
  · rw [eq_iff a b ha hb, value_inj]
  · rcases h with h | h <;> simp [lt, ge, F64.eq, h]

/-- Settles O3: an integer below `2^53` is representable. -/
theorem integersConvertExactly : Obligations.IntegersConvertExactly := by
  unfold Obligations.IntegersConvertExactly
  intro n hn
  have h53 : n.natAbs < 2 ^ 53 := by omega
  obtain ⟨hf, -, -⟩ := ofInt_spec n h53
  exact ⟨hf, value_ofInt n h53⟩

/-- Settles O4: on exact counts the remainder is `units x % units y`, which is representable. -/
theorem remainderIsExact : Obligations.RemainderIsExact := by
  unfold Obligations.RemainderIsExact
  intro x y hx hy hx0 hy0
  have hU := unitsPerOne_cast_pos
  have ey := value_of_nonneg hy0.le
  have hy' : (0 : ℚ) < units y := by
    rw [ey] at hy0
    exact (div_pos_iff_of_pos_right hU).1 hy0
  have hyN : 0 < units y := by exact_mod_cast hy'
  have hm : magBits y ≠ 0 := magBits_ne_zero_of_units hyN.ne'
  have er := value_rem hx hy hx0 hm
  obtain ⟨hf, -⟩ := rem_spec x y hx hy hm
  refine ⟨hf, ?_, ?_, ?_⟩
  · have hq : ⌊value x / value y⌋ = (units x / units y : Nat) := by
      rw [value_of_nonneg hx0, ey, div_div_div_cancel_right₀ hU.ne', Rat.floor_natCast_div_natCast,
        Int.natCast_div]
    have hdm : ((units x % units y : Nat) : ℚ) = units x - (units x / units y : Nat) * units y := by
      rw [eq_sub_iff_add_eq, mul_comm]
      exact_mod_cast Nat.mod_add_div (units x) (units y)
    rw [er, hq, hdm, value_of_nonneg hx0, ey, sub_div, mul_div_assoc, Int.cast_natCast]
  · rw [er]
    exact div_nonneg (Nat.cast_nonneg _) hU.le
  · rw [er, ey, div_lt_div_iff_of_pos_right hU]
    exact_mod_cast Nat.mod_lt (units x) hyN

/-- Settles O5: both discard the fraction of the magnitude, which is the floor from 0 on and the ceiling below. -/
theorem floorAndTruncation : Obligations.FloorAndTruncation := by
  unfold Obligations.FloorAndTruncation
  refine ⟨fun x _ h => floorInt_eq_floor h, fun x _ => ?_⟩
  split_ifs with h
  · exact (truncInt_eq_floorInt h).trans (floorInt_eq_floor h)
  · exact truncInt_eq_ceil (not_le.1 h)

/-- Settles O6: whichever of the free value and the rounded sine is taken has (a) and (b) of R15. -/
theorem sineIsBoundedAndExactAtZero : Obligations.SineIsBoundedAndExactAtZero := by
  unfold Obligations.SineIsBoundedAndExactAtZero
  refine ⟨fun x hx => ?_, Sine.sin_posZero⟩
  obtain ⟨hf, hu⟩ := sin_small x hx
  exact ⟨hf, abs_le.1 (abs_value_le_one hu)⟩

/-- Settles O7: with `t` the series at `x` and `e` its error, the witness is `|t| + e`; `SIN(x)` is near `t`, and `t` is
within `e` of the real sine. -/
theorem sineIsWithinOneUnitOfTheRealSine : Obligations.SineIsWithinOneUnitOfTheRealSine := by
  unfold Obligations.SineIsWithinOneUnitOfTheRealSine
  intro x hx
  obtain ⟨-, h0, h63⟩ := Sine.inRange_value hx
  have herr := Sine.seriesError_le_of_inRange hx
  have hsin := Sine.series_close (value x) h0 (by linarith)
  have hnear := Sine.abs_value_sub_series_le (Sine.sin_near hx)
  generalize (value x : ℝ) / 2 ^ 380 = slack at *
  refine ⟨|Sine.series (value x)| + Sine.seriesError (value x), ?_, ?_⟩
  · have hmag := (abs_abs_sub_abs_le _ _).trans hsin
    have he : 0 ≤ (Sine.seriesError (value x) : ℝ) := (abs_nonneg _).trans hsin
    push_cast
    rw [abs_le] at hmag ⊢
    constructor <;> linarith [hmag.1, hmag.2]
  · calc |(value (Sine.sin x) : ℝ) - Real.sin (value x)|
      _ ≤ |(value (Sine.sin x) : ℝ) - Sine.series (value x)| + |(Sine.series (value x) : ℝ) - Real.sin (value x)| :=
        abs_sub_le _ _ _
      _ ≤ _ := by linarith

/-- Settles O13: a write of rising bytes read inside its range, and outside it. -/
theorem memWriteIsLittleEndian : Obligations.MemWriteIsLittleEndian := by
  unfold Obligations.MemWriteIsLittleEndian
  intro b a n v
  have hlen := littleEndian_length n v
  refine ⟨fun h => ⟨_, if_pos h, rfl, fun i hi => ?_, fun x hx => ?_⟩, fun h => if_neg (not_le.2 h)⟩
  · exact (Memory.read_writeBytes_inside b.cells a (hlen.symm ▸ hi)).trans (littleEndian_getElem? v hi)
  · exact Memory.read_writeBytes_outside b.cells _ (hlen.symm ▸ hx)

/-- Settles O33: the sine's product has a factor within `-1.0 .. 1.0`, the levels are clamped, the square is `A` with a
sign. -/
theorem samplesNeverExceedTheAmplitude : Obligations.SamplesNeverExceedTheAmplitude := by
  unfold Obligations.SamplesNeverExceedTheAmplitude
  rintro s t i hs (rfl | rfl | rfl | rfl) ⟨⟩
  · exact sineStep_sample hs
  · exact triOp_sample s.freq s.ampValue s.tri
  · exact sawOp_sample s.freq s.ampValue s.saw
  · exact sqrOp_sample s.freq s.ampValue s.sqr

end Sys2Proof.Scope
end

section
/-! SUPPORT. The statements of 10_state.md: the reset state (R37), what each agent and each step leaves unchanged (R24, R58,
R134), and the invariant through every step (R33, R34). -/

namespace Sys2Proof.Machine

/-! ## The operation a frame selects (R74, R134) -/

theorem stepSelected_sine {s : State} (h : s.wave = 0#2) : stepSelected s = sineStep s := by
  rw [stepSelected, h]; rfl

theorem stepSelected_triangle {s : State} (h : s.wave = 1#2) : stepSelected s = triStep s := by
  rw [stepSelected, h]; rfl

theorem stepSelected_sawtooth {s : State} (h : s.wave = 2#2) : stepSelected s = sawStep s := by
  rw [stepSelected, h]; rfl

theorem stepSelected_square {s : State} (h : s.wave = 3#2) : stepSelected s = sqrStep s := by
  rw [stepSelected, h]; rfl

theorem wave_cases (w : BitVec 2) : w = 0#2 ∨ w = 1#2 ∨ w = 2#2 ∨ w = 3#2 := by
  revert w; decide

/-- `t` holds the oscillator records of `s`, all but the one that the `WAVE` of `s` selects. -/
def KeepsUnselected (s t : State) : Prop :=
  (s.wave ≠ 0#2 → t.theta = s.theta) ∧ (s.wave ≠ 1#2 → t.tri = s.tri) ∧
  (s.wave ≠ 2#2 → t.saw = s.saw) ∧ (s.wave ≠ 3#2 → t.sqr = s.sqr)

theorem stepSelected_keepsUnselected (s : State) : KeepsUnselected s (stepSelected s) := by
  rcases wave_cases s.wave with h | h | h | h
  · rw [stepSelected_sine h]
    exact ⟨fun hne => absurd h hne, fun _ => rfl, fun _ => rfl, fun _ => rfl⟩
  · rw [stepSelected_triangle h]
    exact ⟨fun _ => rfl, fun hne => absurd h hne, fun _ => rfl, fun _ => rfl⟩
  · rw [stepSelected_sawtooth h]
    exact ⟨fun _ => rfl, fun _ => rfl, fun hne => absurd h hne, fun _ => rfl⟩
  · rw [stepSelected_square h]
    exact ⟨fun _ => rfl, fun _ => rfl, fun _ => rfl, fun hne => absurd h hne⟩

theorem keepsUnselected_of_eq {s t : State} (h1 : t.theta = s.theta) (h2 : t.tri = s.tri) (h3 : t.saw = s.saw)
    (h4 : t.sqr = s.sqr) : KeepsUnselected s t :=
  ⟨fun _ => h1, fun _ => h2, fun _ => h3, fun _ => h4⟩

/-- The oscillators are advanced by a frame only (R24). -/
theorem engineTurn_keepsUnselected {s t : State} (h : engineTurn s = .next t) : KeepsUnselected s t := by
  rcases engineTurn_next h with ⟨-, -, rfl⟩ | ⟨-, rfl⟩ | ⟨-, rfl⟩
  · exact stepSelected_keepsUnselected s
  · exact keepsUnselected_of_eq rfl rfl rfl rfl
  · exact keepsUnselected_of_eq rfl rfl rfl rfl

theorem commandTurn_keepsUnselected {w : CmdWord} {s t : State} (h : commandTurn w s = .next t) :
    KeepsUnselected s t := by
  rcases commandTurn_next h with ⟨_, rfl⟩ | ⟨_, -, rfl⟩ | ⟨_, -, rfl⟩ | ⟨_, -, -, rfl⟩ | ⟨_, -, -, rfl⟩ <;>
    exact keepsUnselected_of_eq rfl rfl rfl rfl

/-! ## A frame from a state with the same request -/

/-- Whether FRAME answers a next state depends on the request and the length of its buffer alone. -/
theorem exec_frame_of_same_request {s s' t u : State} (h : exec .frame s = .next t) (hr : s'.rnd = s.rnd)
    (ho : s'.out = s.out) (hu : frameNext s' = u) : exec .frame s' = .next u := by
  obtain ⟨he, hroom, -⟩ := execFrame_next h
  have he' : frameEnabled s' = true := by rwa [frameEnabled, hr]
  show execFrame s' = _
  rw [execFrame_eq, if_pos he', hr, ho, if_pos hroom, hu]

/-! ## What an agent's instruction leaves unchanged (R58) -/

theorem exec_control_changes {i : Instr} {s t : State} (hi : agentOf i = .control) (h : exec i s = .next t) :
    t = { s with wave := t.wave, freq := t.freq, amp := t.amp } := by
  cases i with
  | setWaveform kind =>
    obtain rfl := Host.Outcome.next.inj h
    rfl
  | setFrequency freq =>
    simp only [exec, execSetFrequency] at h
    split_ifs at h
    obtain rfl := Host.Outcome.next.inj h
    rfl
  | setAmplitude amp =>
    simp only [exec, execSetAmplitude] at h
    split_ifs at h
    obtain rfl := Host.Outcome.next.inj h
    rfl
  | _ => cases hi

theorem exec_audioHost_changes {i : Instr} {s t : State} (hi : agentOf i = .audioHost) (h : exec i s = .next t) :
    t = { s with rnd := t.rnd, out := t.out, returned := t.returned } := by
  cases i with
  | render len => obtain ⟨-, ⟨-, rfl⟩ | ⟨-, rfl⟩⟩ := execRender_next h <;> rfl
  | _ => cases hi

theorem exec_renderEngine_keeps {i : Instr} {s t : State} (hi : agentOf i = .renderEngine) (h : exec i s = .next t) :
    t.wave = s.wave ∧ t.freq = s.freq ∧ t.amp = s.amp ∧ t.inputs = s.inputs := by
  cases i with
  | sineStep | triStep | sawStep | sqrStep =>
    obtain rfl := Host.Outcome.next.inj h
    exact ⟨rfl, rfl, rfl, rfl⟩
  | frame =>
    obtain ⟨-, -, rfl⟩ := execFrame_next h
    obtain ⟨hwave, hfreq, hamp, -, -, -, hinputs⟩ := stepSelected_keeps s
    exact ⟨hwave, hfreq, hamp, hinputs⟩
  | complete =>
    obtain ⟨-, rfl⟩ := execComplete_next h
    exact ⟨rfl, rfl, rfl, rfl⟩
  | _ => cases hi

/-! ## The square's count (R33) -/

theorem sqrNext_count_le (hp : Nat) (q : Sqr) : (sqrNext hp q).count ≤ q.count + 1 :=
  calc (q.count % hp + 1) % hp
    _ ≤ q.count % hp + 1 := Nat.mod_le _ _
    _ ≤ q.count + 1 := Nat.succ_le_succ (Nat.mod_le _ _)

theorem sqrOp_count_le (f : Binary64) (A : Nat) (q : Sqr) : (sqrOp f A q).1.count ≤ q.count + 1 := by
  by_cases hp : halfPeriod f = 0
  · rw [sqrOp_guard hp]
    exact Nat.le_succ _
  · rw [sqrOp_advance hp]
    exact sqrNext_count_le _ _

/-! ## What keeps the invariant -/

/-- The base case (R37), here because no proof cites the tests. -/
theorem State.reset_inv : State.reset.Inv where
  freqLegal := by decide
  ampPositive := by decide
  phase := (phaseOk_iff _).2 (by decide)
  tri := by unfold triOk; decide
  saw := by unfold sawOk; decide
  rnd := by unfold rndOk; decide
  request h := nomatch h
  out := ⟨List.Pairwise.nil, fun _ hc => nomatch hc⟩
  returned _ hb := nomatch hb

theorem State.reset_stereo : State.reset.Stereo := ⟨fun _ _ => ⟨rfl, rfl⟩, fun _ hb => nomatch hb⟩

theorem putInputs_inv {s : State} (h : s.Inv) (moves : List Turn) : (s.putInputs moves).Inv := { h with }

theorem putWave_inv {s : State} (h : s.Inv) (kind : BitVec 2) : (s.putWave kind).Inv := { h with }

theorem putFreq_inv {s : State} (h : s.Inv) {freq : Binary64} (hf : F64.legalFreq freq = true) :
    (s.putFreq freq).Inv := { h with freqLegal := hf }

theorem putAmp_inv {s : State} (h : s.Inv) {amp : BitVec 15} (ha : amp ≠ 0#15) : (s.putAmp amp).Inv :=
  { h with ampPositive := ha }

/-- A buffer written in full may be returned. -/
theorem returnBuffer_inv {s : State} (h : s.Inv) (hout : s.out.Complete) : s.returnBuffer.Inv :=
  { h with
    returned := fun b hb => by
      rcases List.mem_append.1 hb with hb | hb
      · exact h.returned b hb
      · rwa [List.mem_singleton.1 hb] }

/-- R137: the silent buffer is written in full, and no request is in progress. -/
theorem malformed_inv {s : State} (h : s.Inv) (hidle : s.rnd.active = false) (len : Nat) : (malformed len s).Inv := by
  have hfull : (Buffer.mk len (Memory.zeroFill len)).Complete := Memory.zeroFill_filled len
  refine returnBuffer_inv ?_ hfull
  exact { h with
    request := fun hactive => absurd hactive (Bool.eq_false_iff.1 hidle)
    out := Buffer.wf_of_filled hfull le_rfl }

/-- R131: a request starts with every frame to come and nothing written. -/
theorem startRequest_inv {s : State} (h : s.Inv) {len : Nat} (hlen : len < 2 ^ 32) (hwhole : len % 4 = 0) :
    (startRequest len s).Inv :=
  { h with
    rnd := ⟨hlen, show len / 4 < 2 ^ 30 by omega, Nat.zero_le _⟩
    request := fun _ => ⟨hwhole, show 0 + 4 * (len / 4) = len by omega, rfl, rfl⟩
    out := ⟨List.Pairwise.nil, fun _ hc => nomatch hc⟩ }

/-- R136: with no frame remaining the cursor stands at the end of the buffer, so the buffer is written in full. -/
theorem out_complete {s : State} (h : s.Inv) (he : completeEnabled s = true) : s.out.Complete := by
  obtain ⟨hactive, hnone⟩ := (completeEnabled_iff s).1 he
  obtain ⟨-, hcursor, hlen, hfilled⟩ := h.request hactive
  have hend : s.rnd.cursor = s.out.len := by omega
  rwa [hend] at hfilled

theorem completeNext_inv {s : State} (h : s.Inv) (he : completeEnabled s = true) : (completeNext s).Inv := by
  have hfull : s.out.Complete := out_complete h he
  refine returnBuffer_inv ?_ hfull
  exact { h with request := fun hactive => nomatch hactive }

/-- R190: what a reset leaves alone are the buffers and the moves to come. -/
theorem resetBlock_inv {s : State} (h : s.Inv) : (resetBlock s).Inv :=
  { State.reset_inv with
    request := fun hactive => nomatch hactive
    out := h.out
    returned := h.returned }

theorem engineTurn_inv {s t : State} (h : s.Inv) (ht : engineTurn s = .next t) : t.Inv := by
  rcases engineTurn_next ht with ⟨he, -, rfl⟩ | ⟨he, rfl⟩ | ⟨-, rfl⟩
  · exact frameNext_inv h he
  · exact completeNext_inv h he
  · exact h

theorem commandTurn_inv {w : CmdWord} {s t : State} (h : s.Inv) (ht : commandTurn w s = .next t) : t.Inv := by
  rcases commandTurn_next ht with
    ⟨kind, rfl⟩ | ⟨freq, hf, rfl⟩ | ⟨amp, ha, rfl⟩ | ⟨len, hidle, -, rfl⟩ | ⟨len, -, hwhole, rfl⟩
  · exact putWave_inv h kind
  · exact putFreq_inv h hf
  · exact putAmp_inv h ha
  · exact malformed_inv h hidle _
  · exact startRequest_inv h len.isLt hwhole

theorem step_inv {s t : State} (h : s.Inv) (ht : step s = .next t) : t.Inv := by
  obtain ⟨rest, ⟨-, hengine⟩ | ⟨w, -, hcommand⟩ | ⟨-, -, rfl⟩⟩ := step_next ht
  · exact engineTurn_inv (putInputs_inv h rest) hengine
  · exact commandTurn_inv (putInputs_inv h rest) hcommand
  · exact resetBlock_inv (putInputs_inv h rest)

/-! ## The reset signal (R190) -/

theorem step_reset {s : State} {rest : List Turn} (h : s.inputs = .reset :: rest) (hidle : s.rnd.active = false) :
    step s = .next (resetBlock (s.putInputs rest)) := by
  have hturn : step s = resetTurn (s.putInputs rest) := by rw [step, nextTurn, h]
  rw [hturn, resetTurn, State.putInputs_rnd, hidle, if_neg Bool.false_ne_true]

end Sys2Proof.Machine

namespace Sys2Proof.StateRules

open Sys2Proof.Machine

/-- Settles O8: each value is the one the definition of the reset state names. -/
theorem resetValues : Obligations.ResetValues := by
  unfold Obligations.ResetValues
  exact ⟨rfl, rfl, rfl, rfl, rfl, rfl, rfl, rfl⟩

/-- Settles O9: no request is in progress, no buffer is held, and every register is within its bounds. -/
theorem resetMeetsTheInvariant : Obligations.ResetMeetsTheInvariant := by
  unfold Obligations.ResetMeetsTheInvariant
  exact ⟨State.reset_inv, State.reset_stereo⟩

/-- Settles O10, by the three kinds of move a step can take: the render engine's, a command's, a reset. -/
theorem stepKeepsTheInvariant : Obligations.StepKeepsTheInvariant := by
  unfold Obligations.StepKeepsTheInvariant
  exact fun _ _ => step_inv

/-- Settles O14, by the instructions of each agent. -/
theorem agentsKeepToTheirState : Obligations.AgentsKeepToTheirState := by
  unfold Obligations.AgentsKeepToTheirState
  intro i s t h
  exact ⟨fun hi => exec_control_changes hi h, fun hi => exec_audioHost_changes hi h,
    fun hi => exec_renderEngine_keeps hi h⟩

/-- Settles O27: the guard leaves the phase, and a wrapped sum is in range whatever the sine. -/
theorem sineStepKeepsThePhaseInRange : Obligations.SineStepKeepsThePhaseInRange := by
  unfold Obligations.SineStepKeepsThePhaseInRange
  intro s hf hθ
  exact ⟨sineStep s, rfl, sineOp_phase hf hθ Sine.sin s.ampValue⟩

/-- Settles O34: the bounds of each record through its own step operation. -/
theorem levelsStayBounded : Obligations.LevelsStayBounded := by
  unfold Obligations.LevelsStayBounded
  intro s t hamp
  have hA := amp_bounds hamp
  refine ⟨fun hok h => ?_, fun hok h => ?_, fun h => ?_⟩ <;> obtain rfl := Host.Outcome.next.inj h
  · exact triOp_ok hA hok
  · exact sawOp_ok hA hok
  · exact sqrOp_count_le _ _ _

/-- Settles O42: with `WAVE` fixed, the operation of the frame is one that reads and writes its own record, and the sample
is written after it. -/
theorem frameIgnoresUnselectedOscillators : Obligations.FrameIgnoresUnselectedOscillators := by
  unfold Obligations.FrameIgnoresUnselectedOscillators
  intro s t theta tri saw sqr v h
  obtain ⟨-, -, rfl⟩ := execFrame_next h
  refine ⟨fun hw => ?_, fun hw => ?_, fun hw => ?_, fun hw => ?_⟩ <;>
  · refine exec_frame_of_same_request h rfl rfl ?_
    cases s
    cases hw
    rfl

/-- Settles O43: of the moves that are no reset, only a frame advances an oscillator, and it advances the selected one. -/
theorem onlyTheSelectedOscillatorMoves : Obligations.OnlyTheSelectedOscillatorMoves := by
  unfold Obligations.OnlyTheSelectedOscillatorMoves
  intro s t h hreset
  obtain ⟨rest, ⟨-, hengine⟩ | ⟨w, -, hcommand⟩ | ⟨hin, -, -⟩⟩ := step_next h
  · exact engineTurn_keepsUnselected (s := s.putInputs rest) hengine
  · exact commandTurn_keepsUnselected (s := s.putInputs rest) hcommand
  · exact absurd (by rw [hin]; rfl) hreset

/-- Settles O58: the state of a reset move, register by register. -/
theorem resetSignalRestoresTheResetState : Obligations.ResetSignalRestoresTheResetState := by
  unfold Obligations.ResetSignalRestoresTheResetState
  intro s rest h hidle
  exact step_reset h hidle

end Sys2Proof.StateRules
end

section
/-! SUPPORT. The statements of 20_memory.md: the bytes of a frame and of a returned buffer (R51, R52, R54, R133), what every
step keeps of every buffer (R50, R135), and parameter writes between the render engine's moves (R59, R61, R193). -/

namespace Sys2Proof.Machine

/-! ## Which move a step takes (R59) -/

theorem step_idle {s : State} (h : s.inputs = []) : step s = engineTurn s := by rw [step, nextTurn, h]

theorem step_engine {s : State} {rest : List Turn} (h : s.inputs = .engine :: rest) :
    step s = engineTurn (s.putInputs rest) := by rw [step, nextTurn, h]

theorem step_command {s : State} {w : CmdWord} {rest : List Turn} (h : s.inputs = .command w :: rest) :
    step s = commandTurn w (s.putInputs rest) := by rw [step, nextTurn, h]

theorem step_reset_busy {s : State} {rest : List Turn} (h : s.inputs = .reset :: rest) (hbusy : s.rnd.active = true) :
    step s = .refused .resetDuringRequest := by
  have hturn : step s = resetTurn (s.putInputs rest) := by rw [step, nextTurn, h]
  rw [hturn, resetTurn, State.putInputs_rnd, if_pos hbusy]

theorem commandTurn_of_decode {w : CmdWord} {i : Instr} (hw : decodeCommand w = .ok i) (s : State) :
    commandTurn w s = exec i s := by rw [commandTurn, hw]

theorem commandTurn_of_reject {w : CmdWord} {why : Reject} (hw : decodeCommand w = .error why) (s : State) :
    commandTurn w s = .refused (.illegal why) := by rw [commandTurn, hw]

/-! ## The render engine's move (R133, R136, R184) -/

theorem engineTurn_frame {s : State} (h : frameEnabled s = true) : engineTurn s = exec .frame s := if_pos h

theorem engineTurn_complete {s : State} (h : completeEnabled s = true) : engineTurn s = exec .complete s := by
  obtain ⟨-, hnone⟩ := (completeEnabled_iff s).1 h
  have hframe : ¬ frameEnabled s = true := fun hf => by
    obtain ⟨-, hmore⟩ := (frameEnabled_iff s).1 hf
    omega
  rw [engineTurn, if_neg hframe, if_pos h]

theorem engineTurn_idle {s : State} (h : s.rnd.active = false) : engineTurn s = .next s := by
  simp [engineTurn, frameEnabled, completeEnabled, h]

theorem exec_frame {s : State} (he : frameEnabled s = true) (hroom : s.rnd.cursor + 4 ≤ s.out.len) :
    exec .frame s = .next (frameNext s) := by
  show execFrame s = _
  rw [execFrame_eq, if_pos he, if_pos hroom]

theorem exec_complete {s : State} (he : completeEnabled s = true) : exec .complete s = .next (completeNext s) :=
  if_pos he

/-- R50: the cursor and the frames that remain end with the buffer, so an enabled frame fits. -/
theorem frame_fits {s : State} (h : s.Inv) (he : frameEnabled s = true) : s.rnd.cursor + 4 ≤ s.out.len := by
  obtain ⟨hactive, hmore⟩ := (frameEnabled_iff s).1 he
  obtain ⟨-, hcursor, hlen, -⟩ := h.request hactive
  omega

theorem engineTurn_answers {s : State} (h : s.Inv) : ∃ t, engineTurn s = .next t := by
  cases hactive : s.rnd.active with
  | false => exact ⟨s, engineTurn_idle hactive⟩
  | true =>
    rcases Nat.eq_zero_or_pos s.rnd.remaining with hnone | hmore
    · have he := (completeEnabled_iff s).2 ⟨hactive, hnone⟩
      exact ⟨_, (engineTurn_complete he).trans (exec_complete he)⟩
    · have he := (frameEnabled_iff s).2 ⟨hactive, hmore⟩
      exact ⟨_, (engineTurn_frame he).trans (exec_frame he (frame_fits h he))⟩

/-! ## The bytes of a frame (R51, R52, R133) -/

theorem Memory.read_putFrame_outside (m : Memory) {a x : Nat} (v : Int) (h : x < a ∨ a + 4 ≤ x) :
    (Memory.putFrame m a v).read x = m.read x := by
  rw [Memory.read_putFrame, if_neg (by omega), if_neg (by omega)]

/-- Both channels of a frame hold the low byte of the sample below its high byte. -/
theorem frameNext_bytes (s : State) :
    (frameNext s).out.read s.rnd.cursor = some (BitVec.ofInt 8 (stepSelected s).sample) ∧
    (frameNext s).out.read (s.rnd.cursor + 1) = some (BitVec.ofInt 8 ((stepSelected s).sample / 256)) ∧
    (frameNext s).out.read (s.rnd.cursor + 2) = some (BitVec.ofInt 8 (stepSelected s).sample) ∧
    (frameNext s).out.read (s.rnd.cursor + 3) = some (BitVec.ofInt 8 ((stepSelected s).sample / 256)) := by
  simp [frameNext, Buffer.read, Memory.read_putFrame]

/-! ## A frame and the moves to come -/

theorem stepSelected_putInputs (s : State) (moves : List Turn) :
    stepSelected (s.putInputs moves) = (stepSelected s).putInputs moves := by
  rcases wave_cases s.wave with hw | hw | hw | hw
  · rw [stepSelected_sine hw, stepSelected_sine (s := s.putInputs moves) hw]; rfl
  · rw [stepSelected_triangle hw, stepSelected_triangle (s := s.putInputs moves) hw]; rfl
  · rw [stepSelected_sawtooth hw, stepSelected_sawtooth (s := s.putInputs moves) hw]; rfl
  · rw [stepSelected_square hw, stepSelected_square (s := s.putInputs moves) hw]; rfl

theorem frameNext_putInputs (s : State) (moves : List Turn) :
    frameNext (s.putInputs moves) = (frameNext s).putInputs moves := by
  rw [frameNext, stepSelected_putInputs]; rfl

/-- A frame neither reads nor takes the moves to come. -/
theorem exec_frame_putInputs {s : State} (he : frameEnabled s = true) (hroom : s.rnd.cursor + 4 ≤ s.out.len)
    (moves : List Turn) : exec .frame (s.putInputs moves) = .next ((frameNext s).putInputs moves) :=
  (exec_frame (s := s.putInputs moves) he hroom).trans (congrArg _ (frameNext_putInputs s moves))

theorem step_frame {s : State} (he : frameEnabled s = true) (moves : List Turn) :
    step (s.putInputs (.engine :: moves)) = exec .frame (s.putInputs moves) :=
  (step_engine rfl).trans (engineTurn_frame he)

/-! ## A parameter write (R59, R60) -/

/-- A control command reads nothing: it sets the same parameters in every state that holds the same ones. -/
theorem exec_control_of_same_parameters {i : Instr} {s s' u : State} (hi : agentOf i = .control)
    (h : exec i s = .next u) (hwave : s'.wave = s.wave) (hfreq : s'.freq = s.freq) (hamp : s'.amp = s.amp) :
    exec i s' = .next { s' with wave := u.wave, freq := u.freq, amp := u.amp } := by
  cases i with
  | setWaveform kind =>
    obtain rfl := Host.Outcome.next.inj h
    simp only [State.putWave_wave, State.putWave_freq, State.putWave_amp, ← hfreq, ← hamp]
    rfl
  | setFrequency freq =>
    simp only [exec, execSetFrequency] at h ⊢
    split_ifs at h ⊢ with hf
    obtain rfl := Host.Outcome.next.inj h
    simp only [State.putFreq_wave, State.putFreq_freq, State.putFreq_amp, ← hwave, ← hamp]
    rfl
  | setAmplitude amp =>
    simp only [exec, execSetAmplitude] at h ⊢
    split_ifs at h ⊢ with ha
    obtain rfl := Host.Outcome.next.inj h
    simp only [State.putAmp_wave, State.putAmp_freq, State.putAmp_amp, ← hwave, ← hfreq]
    rfl
  | _ => cases hi

/-- R152, R153: what the decoder accepts of the control agent, `exec` does not refuse. -/
theorem exec_control_answers {w : CmdWord} {i : Instr} (hw : decodeCommand w = .ok i) (hi : agentOf i = .control)
    (s : State) : ∃ u, exec i s = .next u := by
  rcases decodeCommand_ok hw with ⟨-, -, rfl⟩ | ⟨-, hf, rfl⟩ | ⟨-, -, ha, rfl⟩ | ⟨-, -, rfl⟩
  · exact ⟨_, rfl⟩
  · exact ⟨_, if_pos hf⟩
  · exact ⟨_, if_neg ha⟩
  · cases hi

/-- A move of the control agent sets the parameters to what the command sets them to from any state that holds the same
ones. -/
theorem step_control {w : CmdWord} {i : Instr} {s u v : State} (hw : decodeCommand w = .ok i) (hi : agentOf i = .control)
    (hu : exec i s = .next u) (hwave : v.wave = s.wave) (hfreq : v.freq = s.freq) (hamp : v.amp = s.amp)
    (moves : List Turn) :
    step (v.putInputs (.command w :: moves)) =
      .next ({ v with wave := u.wave, freq := u.freq, amp := u.amp }.putInputs moves) :=
  calc step (v.putInputs (.command w :: moves))
    _ = commandTurn w (v.putInputs moves) := step_command rfl
    _ = exec i (v.putInputs moves) := commandTurn_of_decode hw _
    _ = _ := exec_control_of_same_parameters hi hu hwave hfreq hamp

/-- The commands of the audio host are the RENDER commands (R178). -/
theorem decodeCommand_agent {w : CmdWord} {i : Instr} (hw : decodeCommand w = .ok i) :
    agentOf i = .control ∨ ∃ len, i = .render len := by
  rcases decodeCommand_ok hw with ⟨-, -, rfl⟩ | ⟨-, -, rfl⟩ | ⟨-, -, -, rfl⟩ | ⟨-, -, rfl⟩
  · exact Or.inl rfl
  · exact Or.inl rfl
  · exact Or.inl rfl
  · exact Or.inr ⟨_, rfl⟩

/-! ## RENDER (R131, R132) -/

theorem exec_render_busy {s : State} (len : BitVec 32) (h : s.rnd.active = true) :
    exec (.render len) s = .refused .renderBusy := if_pos h

theorem exec_render_answers {s : State} (len : BitVec 32) (h : s.rnd.active = false) :
    ∃ t, exec (.render len) s = .next t := by
  show ∃ t, execRender len s = .next t
  rw [execRender, if_neg (Bool.eq_false_iff.1 h)]
  split_ifs
  · exact ⟨_, rfl⟩
  · exact ⟨_, rfl⟩

/-! ## A request under racing parameter writes (R61, R179) -/

/-- A racing move leaves the invariant and the request, and takes a frame if it is the render engine's. -/
theorem step_racing {s : State} {m : Turn} {rest : List Turn} (h : s.Inv) (hactive : s.rnd.active = true)
    (hin : s.inputs = m :: rest) (hm : m.Racing) (hmore : m = .engine → 0 < s.rnd.remaining) :
    ∃ t, step s = .next t ∧ t.Inv ∧ t.inputs = rest ∧ t.rnd.active = true ∧
      t.rnd.remaining = s.rnd.remaining - [m].count .engine ∧ t.rnd.cursor = s.rnd.cursor + 4 * [m].count .engine := by
  rcases hm with rfl | ⟨w, i, rfl, hw, hi⟩
  · have he : frameEnabled s = true := (frameEnabled_iff s).2 ⟨hactive, hmore rfl⟩
    have hstep := (step_engine hin).trans ((engineTurn_frame (s := s.putInputs rest) he).trans
      (exec_frame_putInputs he (frame_fits h he) rest))
    exact ⟨_, hstep, step_inv h hstep, rfl, hactive, rfl, rfl⟩
  · obtain ⟨u, hu⟩ := exec_control_answers hw hi (s.putInputs rest)
    have hstep := (step_command hin).trans ((commandTurn_of_decode hw _).trans hu)
    refine ⟨u, hstep, step_inv h hstep, ?_⟩
    rw [exec_control_changes hi hu]
    exact ⟨rfl, hactive, rfl, rfl⟩

theorem run_racing (moves : List Turn) {s : State} (h : s.Inv) (hactive : s.rnd.active = true) (hin : s.inputs = moves)
    (hracing : ∀ m ∈ moves, m.Racing) (hcount : moves.count .engine ≤ s.rnd.remaining) :
    ∃ t, (Host.Core.run core moves.length s : Host.Outcome State Fault Refusal) = .next t ∧
      t.rnd.active = true ∧ t.rnd.remaining = s.rnd.remaining - moves.count .engine ∧
      t.rnd.cursor = s.rnd.cursor + 4 * moves.count .engine ∧ t.inputs = [] ∧ t.Inv := by
  induction moves generalizing s with
  | nil => exact ⟨s, rfl, hactive, rfl, rfl, hin, h⟩
  | cons m rest ih =>
    have hsplit : (m :: rest).count .engine = [m].count .engine + rest.count .engine := List.count_append (l₁ := [m])
    have hmore : m = .engine → 0 < s.rnd.remaining := fun hm => by
      rw [hm, List.count_cons_self] at hcount
      omega
    obtain ⟨u, hstep, hinv, hrest, hu, hremaining, hcursor⟩ :=
      step_racing h hactive hin (hracing m List.mem_cons_self) hmore
    obtain ⟨t, hrun, ht, hremaining', hcursor', hdone, hinv'⟩ :=
      ih hinv hu hrest (fun m' hm' => hracing m' (List.mem_cons_of_mem m hm')) (by omega)
    exact ⟨t, (run_next hstep _).trans hrun, ht, by omega, by omega, hdone, hinv'⟩

/-! ## What a step does to the buffers -/

/-- A property of every buffer outlives a step when the silent buffer of R137, the unwritten one of R131 and the present one
with one frame more have it: a step leaves one of these in `out`, or the present one, and returns no other. -/
theorem step_keeps_buffers {P : Buffer → Prop} {s t : State} (h : step s = .next t)
    (hsilent : ∀ len, P { len, cells := Memory.zeroFill len }) (hunwritten : ∀ len, P { len, cells := [] })
    (hframe : s.rnd.active = true → s.rnd.cursor + 4 ≤ s.out.len →
      ∀ v, P { len := s.out.len, cells := Memory.putFrame s.out.cells s.rnd.cursor v })
    (hs : P s.out ∧ ∀ b ∈ s.returned, P b) : P t.out ∧ ∀ b ∈ t.returned, P b := by
  obtain ⟨hout, hreturned⟩ := hs
  have hadd : ∀ b, P b → ∀ b' ∈ s.returned ++ [b], P b' := fun b hb b' hb' => by
    rcases List.mem_append.1 hb' with hb' | hb'
    · exact hreturned b' hb'
    · rwa [List.mem_singleton.1 hb']
  obtain ⟨rest, ⟨-, hengine⟩ | ⟨w, -, hcommand⟩ | ⟨-, -, rfl⟩⟩ := step_next h
  · rcases engineTurn_next hengine with ⟨he, hroom, rfl⟩ | ⟨-, rfl⟩ | ⟨-, rfl⟩
    · obtain ⟨hactive, -⟩ := (frameEnabled_iff _).1 he
      obtain ⟨-, -, -, -, -, hkeep, -⟩ := stepSelected_keeps (s.putInputs rest)
      refine ⟨hframe hactive hroom _, fun b hb => hreturned b ?_⟩
      exact hkeep ▸ hb
    · exact ⟨hout, hadd s.out hout⟩
    · exact ⟨hout, hreturned⟩
  · rcases commandTurn_next hcommand with ⟨_, rfl⟩ | ⟨_, -, rfl⟩ | ⟨_, -, rfl⟩ | ⟨len, -, -, rfl⟩ | ⟨len, -, -, rfl⟩
    · exact ⟨hout, hreturned⟩
    · exact ⟨hout, hreturned⟩
    · exact ⟨hout, hreturned⟩
    · exact ⟨hsilent _, hadd _ (hsilent _)⟩
    · exact ⟨hunwritten _, hreturned⟩
  · exact ⟨hout, hreturned⟩

/-! ## The canonical form (R50; log entry 4) -/

theorem Buffer.unwritten_wf (len : Nat) : Buffer.wf { len, cells := [] } :=
  ⟨List.Pairwise.nil, fun _ hc => nomatch hc⟩

theorem Buffer.zeroFill_wf (len : Nat) : Buffer.wf { len, cells := Memory.zeroFill len } :=
  Buffer.wf_of_filled (Memory.zeroFill_filled len) le_rfl

theorem Buffer.putFrame_wf {b : Buffer} (h : b.wf) {a : Nat} (hroom : a + 4 ≤ b.len) (v : Int) :
    Buffer.wf { len := b.len, cells := Memory.putFrame b.cells a v } := by
  obtain ⟨hrising, hinside⟩ := h
  refine ⟨Memory.putFrame_wf hrising a v, fun c hc => ?_⟩
  rcases Memory.mem_putFrame hc with ⟨-, hlt⟩ | hc
  · exact lt_of_lt_of_le hlt hroom
  · exact hinside c hc

/-! ## Equal channels (R52, R135) -/

theorem Buffer.unwritten_channelsEqual (len : Nat) : Buffer.ChannelsEqual { len, cells := [] } :=
  fun _ _ => ⟨rfl, rfl⟩

theorem Buffer.zeroFill_channelsEqual (len : Nat) : Buffer.ChannelsEqual { len, cells := Memory.zeroFill len } := by
  intro k hk
  have hzero : ∀ a ≤ 4 * k + 3, (Memory.zeroFill len).read a = some 0#8 := fun a ha => by
    rw [Memory.read_zeroFill, if_pos (lt_of_le_of_lt ha hk)]
  exact ⟨(hzero _ (by omega)).trans (hzero _ (by omega)).symm, (hzero _ (by omega)).trans (hzero _ (by omega)).symm⟩

/-- A frame written at a frame's place gives that frame both channels and leaves every other frame alone. -/
theorem Buffer.putFrame_channelsEqual {b : Buffer} (h : b.ChannelsEqual) {a : Nat} (ha : a % 4 = 0) (v : Int) :
    Buffer.ChannelsEqual { len := b.len, cells := Memory.putFrame b.cells a v } := by
  intro k hk
  by_cases hka : 4 * k = a
  · simp [Buffer.read, Memory.read_putFrame, hka]
  · have hkeep : ∀ j < 4, (Memory.putFrame b.cells a v).read (4 * k + j) = b.read (4 * k + j) :=
      fun j hj => Memory.read_putFrame_outside _ _ (by omega)
    obtain ⟨hlow, hhigh⟩ := h k hk
    exact ⟨(hkeep 0 (by decide)).trans (hlow.trans (hkeep 2 (by decide)).symm),
      (hkeep 1 (by decide)).trans (hhigh.trans (hkeep 3 (by decide)).symm)⟩

/-- During a request the cursor stands at a frame's place (R133). -/
theorem cursor_at_frame {s : State} (h : s.Inv) (hactive : s.rnd.active = true) : s.rnd.cursor % 4 = 0 := by
  obtain ⟨hwhole, hcursor, -, -⟩ := h.request hactive
  omega

end Sys2Proof.Machine

namespace Sys2Proof.MemoryRules

open Sys2Proof.Machine

/-- Settles O11: a frame is written at a multiple of 4, so it replaces both channels of one frame of the buffer. -/
theorem stepKeepsTheChannelsEqual : Obligations.StepKeepsTheChannelsEqual := by
  unfold Obligations.StepKeepsTheChannelsEqual
  intro s t hinv hs h
  exact step_keeps_buffers h Buffer.zeroFill_channelsEqual Buffer.unwritten_channelsEqual
    (fun hactive _ => Buffer.putFrame_channelsEqual hs.1 (cursor_at_frame hinv hactive)) hs

/-- Settles O48, by induction on the moves to come. -/
theorem requestAdvancesUnderAnyInterleaving : Obligations.RequestAdvancesUnderAnyInterleaving := by
  unfold Obligations.RequestAdvancesUnderAnyInterleaving
  intro s hinv hactive
  exact run_racing s.inputs hinv hactive rfl

/-- Settles O12: the only write into a buffer is a frame's, and a frame is written where it fits. -/
theorem stepKeepsMemoryCanonical : Obligations.StepKeepsMemoryCanonical := by
  unfold Obligations.StepKeepsMemoryCanonical
  intro s t hs h
  exact step_keeps_buffers h Buffer.zeroFill_wf Buffer.unwritten_wf (fun _ hroom => Buffer.putFrame_wf hs.1 hroom) hs

/-- Settles O15: a frame leaves the parameters and the moves to come, and a command sets the parameters alone. -/
theorem parameterWriteReachesLaterFramesOnly : Obligations.ParameterWriteReachesLaterFramesOnly := by
  unfold Obligations.ParameterWriteReachesLaterFramesOnly
  intro s w i rest hw hi he hroom
  obtain ⟨u, hu⟩ := exec_control_answers hw hi s
  refine ⟨u, hu, ?_, frameNext s, exec_frame he hroom, ?_⟩
  · have hcontrol := exec_control_changes hi hu
    have heu : frameEnabled u = true := by rw [hcontrol]; exact he
    rw [run_next (step_control hw hi hu rfl rfl rfl _), run_one, ← hcontrol, step_frame heu]
  · obtain ⟨hwave, hfreq, hamp, -, -, -, -⟩ := stepSelected_keeps s
    have hframe := (step_frame he (.command w :: rest)).trans (exec_frame_putInputs he hroom _)
    rw [run_next hframe, run_one]
    exact step_control (v := frameNext s) hw hi hu hwave hfreq hamp rest

/-- Settles O39: the frame's step operation, then the four bytes read back. -/
theorem frameWritesTheSelectedSampleToBothChannels : Obligations.FrameWritesTheSelectedSampleToBothChannels := by
  unfold Obligations.FrameWritesTheSelectedSampleToBothChannels
  intro s he hroom
  obtain ⟨hlow, hhigh, hlow', hhigh'⟩ := frameNext_bytes s
  exact ⟨stepSelected s, frameNext s, exec_decodeSelector s, exec_frame he hroom, rfl, rfl, hlow, hhigh, hlow', hhigh',
    fun _ ha => Memory.read_putFrame_outside _ _ ha⟩

/-- Settles O40: the sample is within the amplitude's range, and so within 16 bits. -/
theorem frameBytesAreTheSample : Obligations.FrameBytesAreTheSample := by
  unfold Obligations.FrameBytesAreTheSample
  intro s t hinv h
  obtain ⟨-, -, rfl⟩ := execFrame_next h
  obtain ⟨hlow, hhigh, -, -⟩ := frameNext_bytes s
  obtain ⟨hmin, hmax⟩ := stepSelected_sample s hinv
  obtain ⟨-, hA⟩ := amp_bounds hinv.ampPositive
  exact ⟨_, _, hlow, hhigh, sample_of_bytes _ ⟨by omega, by omega⟩, hmin, hmax⟩

/-- Settles O45: with no frame remaining the cursor stands at the end of the request's buffer. -/
theorem returnedBufferIsFullyWritten : Obligations.ReturnedBufferIsFullyWritten := by
  unfold Obligations.ReturnedBufferIsFullyWritten
  intro s t hinv h
  obtain ⟨he, rfl⟩ := execComplete_next h
  obtain ⟨hactive, -⟩ := (completeEnabled_iff s).1 he
  obtain ⟨-, -, hlen, -⟩ := hinv.request hactive
  have hfull : s.out.FilledTo s.rnd.len := hlen ▸ out_complete hinv he
  exact ⟨hlen, rfl, hfull, fun a ha => (Buffer.read_isSome_of_filled hfull a).2 ha⟩

/-- Settles O56, by the next move: the render engine's step always answers, and of the commands only RENDER can be refused
once decoded. -/
theorem stepStopsOnlyForANamedReason : Obligations.StepStopsOnlyForANamedReason := by
  unfold Obligations.StepStopsOnlyForANamedReason
  intro s hinv
  match hin : s.inputs with
  | [] => exact Or.inl (step_idle hin ▸ engineTurn_answers hinv)
  | .engine :: rest => exact Or.inl (step_engine hin ▸ engineTurn_answers (putInputs_inv hinv rest))
  | .reset :: rest =>
    cases hactive : s.rnd.active with
    | false => exact Or.inl ⟨_, step_reset hin hactive⟩
    | true => exact Or.inr (Or.inr (Or.inr ⟨rest, rfl, rfl, step_reset_busy hin hactive⟩))
  | .command w :: rest =>
    rw [step_command hin]
    cases hw : decodeCommand w with
    | error why => exact Or.inr (Or.inl ⟨w, rest, why, rfl, hw, commandTurn_of_reject hw _⟩)
    | ok i =>
      rw [commandTurn_of_decode hw]
      obtain hi | ⟨len, rfl⟩ := decodeCommand_agent hw
      · exact Or.inl (exec_control_answers hw hi _)
      · cases hactive : s.rnd.active with
        | false => exact Or.inl (exec_render_answers len hactive)
        | true => exact Or.inr (Or.inr (Or.inl ⟨w, rest, len, rfl, hw, rfl, exec_render_busy len hactive⟩))

/-- Settles O54: with no move to come the render engine moves as if its move were the next. -/
theorem stepRunsTheRenderEngine : Obligations.StepRunsTheRenderEngine := by
  unfold Obligations.StepRunsTheRenderEngine
  intro s rest hin
  have hstep : step s = engineTurn (s.putInputs rest) := by
    rcases hin with hin | ⟨hin, rfl⟩
    · exact step_engine hin
    · rw [step_idle hin, ← hin, State.putInputs_self]
  rw [hstep]
  refine ⟨fun hactive hmore => ?_, fun hactive hnone => ?_, fun hidle => engineTurn_idle hidle⟩
  · exact engineTurn_frame ((frameEnabled_iff _).2 ⟨hactive, hmore⟩)
  · exact engineTurn_complete ((completeEnabled_iff _).2 ⟨hactive, hnone⟩)

end Sys2Proof.MemoryRules
end

section
/-! SUPPORT. The statements of 30_encoding.md: decoder and encoder as inverses (R70 to R76), the refused words (R78), `legal_freq`
on the bits of an encoding (R77), the assembler's examples and pseudo-instructions (R81, R82), and the step on a delivered or
placed word (R180). -/

namespace Sys2Proof.F64

/-! ## `legal_freq` (R77) -/

theorem legalFreq_iff (x : Binary64) :
    legalFreq x = true ↔ isFinite x = true ∧ (sign x = true → magBits x = 0) := by
  cases h : sign x <;> simp [legalFreq, h]

/-- The exponent bits 62:52, read off the encoding as a number. -/
theorem expField_eq (x : Binary64) : expField x = x.toNat / 2 ^ 52 % 2 ^ 11 := by
  unfold expField magBits
  omega

/-- A set sign bit over other bits all 0 is the largest legal encoding, `-0.0`. -/
theorem sign_imp_magBits_eq_zero_iff (x : Binary64) : (sign x = true → magBits x = 0) ↔ x.toNat ≤ 2 ^ 63 := by
  have := x.isLt
  rw [sign_eq, decide_eq_true_eq, magBits]
  omega

theorem legalFreq_iff_toNat (x : Binary64) :
    legalFreq x = true ↔ x.toNat / 2 ^ 52 % 2 ^ 11 ≠ 0x7FF ∧ x.toNat ≤ 2 ^ 63 := by
  rw [legalFreq_iff, sign_imp_magBits_eq_zero_iff, isFinite, bne_iff_ne, expField_eq]

/-- Of the finite values, those with a set sign bit and another bit set are below `+0.0`. -/
theorem ge_posZero_iff {x : Binary64} (hx : isFinite x = true) :
    ge x posZero = true ↔ (sign x = true → magBits x = 0) := by
  have hzero : isNaN posZero = false ∧ orderKey posZero = 0 := by decide
  obtain ⟨hnan, hkey⟩ := hzero
  simp only [ge, isNaN_of_isFinite hx, hnan, hkey, Bool.not_false, Bool.true_and, decide_eq_true_eq]
  rw [orderKey]
  generalize magBits x = m
  cases sign x <;> simp

theorem extractLsb'_exponent_eq_iff (x : Binary64) : x.extractLsb' 52 11 = 0x7FF#11 ↔ expField x = 0x7FF := by
  rw [← BitVec.toNat_inj, BitVec.extractLsb'_toNat, Nat.shiftRight_eq_div_pow, ← expField_eq]
  rfl

theorem extractLsb'_magnitude_eq_zero_iff (x : Binary64) : x.extractLsb' 0 63 = 0#63 ↔ magBits x = 0 := by
  rw [← BitVec.toNat_inj, BitVec.extractLsb'_toNat, Nat.shiftRight_zero]
  rfl

end Sys2Proof.F64

namespace Sys2Proof

open Operands

/-! ## Round trip (R70 to R76) -/

theorem decode_encode (i : Instr) : Laws.RoundTrip.Statement i := by
  cases i with
  | setWaveform kind => exact Laws.RoundTrip.setWaveform kind
  | setFrequency freq => exact Laws.RoundTrip.setFrequency freq
  | setAmplitude amp => exact Laws.RoundTrip.setAmplitude amp
  | render len => exact Laws.RoundTrip.render len
  | sineStep => exact Laws.RoundTrip.sineStep
  | triStep => exact Laws.RoundTrip.triStep
  | sawStep => exact Laws.RoundTrip.sawStep
  | sqrStep => exact Laws.RoundTrip.sqrStep
  | frame => exact Laws.RoundTrip.frame
  | complete => exact Laws.RoundTrip.complete

theorem encode_eq_none_iff (i : Instr) : encode i = none ↔ i = .frame ∨ i = .complete := by
  cases i <;> simp [encode]

theorem wf_of_decodeCommand {w : CmdWord} {i : Instr} (h : decodeCommand w = .ok i) : i.wf = true := by
  rcases decodeCommand_ok h with ⟨-, -, rfl⟩ | ⟨-, hfreq, rfl⟩ | ⟨-, -, hamp, rfl⟩ | ⟨-, -, rfl⟩
  · rfl
  · exact hfreq
  · exact bne_iff_ne.2 hamp
  · rfl

/-- The bits the decoder drops are the ones it wants zero, so the word is put together again from opcode and operand. -/
theorem encode_of_decodeCommand {w : CmdWord} {i : Instr} (h : decodeCommand w = .ok i) :
    encode i = some (.command w) := by
  rcases decodeCommand_ok h with ⟨hop, hzero, rfl⟩ | ⟨hop, -, rfl⟩ | ⟨hop, hzero, -, rfl⟩ | ⟨hop, hzero, rfl⟩
  · rw [encode, setWidth_kind hzero, ← hop, command_opcode_operand]
  · rw [encode, ← hop, command_opcode_operand]
  · rw [encode, setWidth_amp hzero, ← hop, command_opcode_operand]
  · rw [encode, setWidth_len hzero, ← hop, command_opcode_operand]

theorem wf_decodeSelector (sel : BitVec 2) : (decodeSelector sel).wf = true := by
  revert sel; decide

theorem encode_decodeSelector (sel : BitVec 2) : encode (decodeSelector sel) = some (.selector sel) := by
  revert sel; decide

/-! ## What the decoder answers at each opcode byte (R76, R78) -/

theorem decodeCommand_waveform (x : BitVec 64) :
    decodeCommand (command 0x01#8 x) =
      if 2 ^ 2 ≤ x.toNat then .error .reservedOperandBits else .ok (.setWaveform (kind x)) := by
  simp [decodeCommand, aboveKind_eq_zero]

theorem decodeCommand_frequency (x : BitVec 64) :
    decodeCommand (command 0x02#8 x) =
      if x.toNat / 2 ^ 52 % 2 ^ 11 = 0x7FF ∨ 2 ^ 63 < x.toNat then .error .illegalFrequency
      else .ok (.setFrequency x) := by
  have hlegal : F64.legalFreq x = true ↔ ¬ (x.toNat / 2 ^ 52 % 2 ^ 11 = 0x7FF ∨ 2 ^ 63 < x.toNat) := by
    rw [F64.legalFreq_iff_toNat, not_or, not_lt]
  split_ifs with h
  · have hf : F64.legalFreq x = false := Bool.eq_false_iff.2 fun hf => hlegal.1 hf h
    simp [decodeCommand, freq, hf]
  · simp [decodeCommand, freq, hlegal.2 h]

theorem decodeCommand_amplitude (x : BitVec 64) :
    decodeCommand (command 0x03#8 x) =
      if x.toNat = 0 ∨ 32767 < x.toNat then .error .illegalAmplitude else .ok (.setAmplitude (amp x)) := by
  have hbits : aboveAmp x ≠ 0#49 ∨ amp x = 0#15 ↔ x.toNat = 0 ∨ 32767 < x.toNat := by
    by_cases h : x.toNat ≤ 32767
    · have hamp := amp_eq_zero x h
      have habove := (aboveAmp_eq_zero x).2 h
      simp [habove, hamp, h]
    · have habove := mt (aboveAmp_eq_zero x).1 h
      simp [habove, not_le.1 h]
  simp [decodeCommand, hbits]

theorem decodeCommand_length (x : BitVec 64) :
    decodeCommand (command 0x10#8 x) =
      if 2 ^ 32 ≤ x.toNat then .error .reservedOperandBits else .ok (.render (len x)) := by
  simp [decodeCommand, aboveLen_eq_zero]

theorem decodeCommand_otherOpcode {op : BitVec 8} (h : op ≠ 0x01#8 ∧ op ≠ 0x02#8 ∧ op ≠ 0x03#8 ∧ op ≠ 0x10#8)
    (x : BitVec 64) : decodeCommand (command op x) = .error .illegalOpcode := by
  obtain ⟨h1, h2, h3, h4⟩ := h
  simp [decodeCommand, h1, h2, h3, h4]

theorem ite_error_eq_iff {P : Prop} [Decidable P] {why r : Reject} {i : Instr} :
    (if P then Except.error why else Except.ok i) = Except.error r ↔ P ∧ why = r := by
  split_ifs with h <;> simp [h]

/-! ## The words of the opcode table (R74; log entry 12) -/

theorem tableEncoding_command (w : Nat) : tableEncoding 72 w = .command (BitVec.ofNat 72 w) :=
  if_neg fun h => lt_irrefl _ h.1

theorem tableEncoding_selector {nbits w : Nat} (hshort : nbits < 72) (hw : w < 4) :
    tableEncoding nbits w = .selector (BitVec.ofNat 2 w) := if_pos ⟨hshort, hw⟩

theorem decodeCommand_of_decodeTableWord {w : Nat} {i : Instr} (h : decodeTableWord 72 w = some i) :
    decodeCommand (BitVec.ofNat 72 w) = .ok i := by
  rw [decodeTableWord, tableEncoding_command] at h
  split at h
  case h_1 j hj => rwa [Option.some.inj h] at hj
  case h_2 => cases h

end Sys2Proof

namespace Sys2Proof.Machine

/-! ## An instruction placed for the next step (R76; log entry 12) -/

theorem step_withFetchWord_command (s : State) {w : Nat} {i : Instr}
    (h : decodeCommand (BitVec.ofNat 72 w) = .ok i) : step (s.withFetchWord 72 w) = exec i s := by
  rw [State.withFetchWord, tableEncoding_command]
  exact (step_command rfl).trans (commandTurn_of_decode h s)

/-- A frame in progress is taken as it is only where its bytes fit; otherwise a buffer of one frame is handed over. -/
theorem readyForFrame_cases (s : State) :
    (readyForFrame s = s ∧ frameEnabled s = true ∧ s.rnd.cursor + 4 ≤ s.out.len) ∨
      readyForFrame s = startRequest 4 s := by
  unfold readyForFrame
  split_ifs with h
  · rw [Bool.and_eq_true, decide_eq_true_eq] at h
    exact Or.inl ⟨rfl, h⟩
  · exact Or.inr rfl

theorem readyForFrame_enabled (s : State) :
    frameEnabled (readyForFrame s) = true ∧ (readyForFrame s).rnd.cursor + 4 ≤ (readyForFrame s).out.len := by
  rcases readyForFrame_cases s with ⟨hready, h⟩ | hready
  · rwa [hready]
  · rw [hready]
    exact ⟨rfl, le_rfl⟩

theorem readyForFrame_keeps (s : State) :
    (readyForFrame s).freq = s.freq ∧ (readyForFrame s).amp = s.amp ∧ (readyForFrame s).theta = s.theta ∧
    (readyForFrame s).tri = s.tri ∧ (readyForFrame s).saw = s.saw ∧ (readyForFrame s).sqr = s.sqr ∧
    (readyForFrame s).inputs = s.inputs := by
  rcases readyForFrame_cases s with ⟨hready, -⟩ | hready <;> rw [hready] <;> exact ⟨rfl, rfl, rfl, rfl, rfl, rfl, rfl⟩

/-- The state in which a placed selector is the `WAVE` of the frame to take. -/
def selectorFrame (sel : BitVec 2) (s : State) : State := (readyForFrame s).putWave sel

theorem exec_frame_selectorFrame (sel : BitVec 2) (s : State) :
    exec .frame (selectorFrame sel s) = .next (frameNext (selectorFrame sel s)) := by
  obtain ⟨he, hroom⟩ := readyForFrame_enabled s
  exact exec_frame he hroom

theorem step_withFetchWord_selector (s : State) {nbits w : Nat} (hshort : nbits < 72) (hw : w < 4) :
    step (s.withFetchWord nbits w) = exec .frame (selectorFrame (BitVec.ofNat 2 w) s) := by
  obtain ⟨he, -⟩ := readyForFrame_enabled s
  rw [State.withFetchWord, tableEncoding_selector hshort hw]
  exact step_frame (s := selectorFrame (BitVec.ofNat 2 w) s) he _

end Sys2Proof.Machine

namespace Sys2Proof.EncodingRules

open Sys2Proof.Machine Sys2Proof.Operands

/-- Settles O18, by the instructions: each has one lemma of its own. -/
theorem decodeOfEncode : Obligations.DecodeOfEncode := by
  unfold Obligations.DecodeOfEncode
  exact ⟨decode_encode, encode_eq_none_iff⟩

/-- Settles O19: every slice the decoder takes is a whole operand, since it wants the bits above it zero. -/
theorem decodedWordsAreEncodings : Obligations.DecodedWordsAreEncodings := by
  unfold Obligations.DecodedWordsAreEncodings
  intro e i h
  cases e with
  | command w => exact ⟨wf_of_decodeCommand h, encode_of_decodeCommand h⟩
  | selector sel =>
    obtain rfl := Except.ok.inj h
    exact ⟨wf_decodeSelector sel, encode_decodeSelector sel⟩

/-- Settles O20, by the opcode byte: each of the four leaves one reason, and any other leaves `illegalOpcode`. -/
theorem illegalWordsAreRefused : Obligations.IllegalWordsAreRefused := by
  unfold Obligations.IllegalWordsAreRefused
  intro w
  simp only [← toNat_opcode, ← toNat_operand]
  rw [← command_opcode_operand w, opcode_command, operand_command]
  generalize opcode w = op, operand w = x
  obtain rfl | rfl | rfl | rfl | hother : op = 0x01#8 ∨ op = 0x02#8 ∨ op = 0x03#8 ∨ op = 0x10#8 ∨
      (op ≠ 0x01#8 ∧ op ≠ 0x02#8 ∧ op ≠ 0x03#8 ∧ op ≠ 0x10#8) := by tauto
  · simp only [decodeCommand_waveform, ite_error_eq_iff]; simp
  · simp only [decodeCommand_frequency, ite_error_eq_iff]; simp
  · simp only [decodeCommand_amplitude, ite_error_eq_iff]; simp
  · simp only [decodeCommand_length, ite_error_eq_iff]; simp
  · have hnat : op.toNat ≠ 0x01 ∧ op.toNat ≠ 0x02 ∧ op.toNat ≠ 0x03 ∧ op.toNat ≠ 0x10 := by
      simpa [← BitVec.toNat_inj] using hother
    simp [decodeCommand_otherOpcode hother, hnat]

/-- Settles O21: of the finite encodings, both tests reject those with a set sign bit over another set bit. -/
theorem legalFrequenciesAreFiniteAndNotNegative : Obligations.LegalFrequenciesAreFiniteAndNotNegative := by
  unfold Obligations.LegalFrequenciesAreFiniteAndNotNegative
  intro x
  rw [F64.legalFreq_iff]
  refine ⟨and_congr_right fun hx => (F64.ge_posZero_iff hx).symm, ?_⟩
  rw [ne_eq, F64.extractLsb'_exponent_eq_iff, F64.extractLsb'_magnitude_eq_zero_iff, F64.isFinite, bne_iff_ne]
  rfl

/-- Settles O16: the lines and the words are literals, so the assembler and the decoder run on them. -/
theorem encodingExamples : Obligations.EncodingExamples := by
  unfold Obligations.EncodingExamples
  decide +kernel

/-- Settles O17: the words and the selectors are literals, so the decoder runs on them. -/
theorem writtenWordsDecode : Obligations.WrittenWordsDecode := by
  unfold Obligations.WrittenWordsDecode
  decide

/-- Settles O22: two zero bits below a number multiply it by 4. -/
theorem pseudoInstructionsExpand : Obligations.PseudoInstructionsExpand := by
  unfold Obligations.PseudoInstructionsExpand
  refine ⟨by decide, fun n => ⟨n ++ 0#2, rfl, ?_⟩⟩
  rw [BitVec.toNat_append, Nat.shiftLeft_eq, BitVec.toNat_ofNat, Nat.zero_mod, Nat.or_zero, Nat.mul_comm]

/-- Settles O53: the two answers of the decoder. -/
theorem stepRunsTheDecodedCommand : Obligations.StepRunsTheDecodedCommand := by
  unfold Obligations.StepRunsTheDecodedCommand
  intro s w rest hin
  rw [step_command hin]
  exact ⟨fun i hw => commandTurn_of_decode hw _, fun why hw => commandTurn_of_reject hw _⟩

/-- Settles O55: a command word placed is the next move, and a selector placed stands in `WAVE` of a state whose next move
is a frame with room for its bytes. -/
theorem placedInstructionRunsNext : Obligations.PlacedInstructionRunsNext := by
  unfold Obligations.PlacedInstructionRunsNext
  refine ⟨fun s w i _ hw => step_withFetchWord_command s (decodeCommand_of_decodeTableWord hw), fun s w hw => ⟨?_, ?_⟩⟩
  · rw [decodeTableWord, tableEncoding_selector (by decide) hw]
    rfl
  · obtain ⟨hfreq, hamp, htheta, htri, hsaw, hsqr, hin⟩ := readyForFrame_keeps s
    have hrun := exec_decodeSelector (selectorFrame (BitVec.ofNat 2 w) s)
    exact ⟨selectorFrame (BitVec.ofNat 2 w) s, _, _, rfl, hfreq, hamp, htheta, htri, hsaw, hsqr, hin, hrun,
      step_withFetchWord_selector s (by decide) hw, exec_frame_selectorFrame _ s, rfl, rfl, rfl, rfl, rfl⟩

end Sys2Proof.EncodingRules
end

section
/-! SUPPORT. The statements of 40_oscillators.md: which frequencies are degenerate (R101 to R103), the wrap as one subtraction
(R105), each step operation in every state (R100, R104, R108, R111, R113), the sine's worked example under every sine that R15
allows (R106), and the square's counter (R114). -/

set_option Elab.async false

namespace Sys2Proof.F64

/-! ## Positive encodings: the magnitude bits carry the order -/

/-- Finite and above 0. -/
abbrev Positive (x : Binary64) : Prop := isFinite x = true ∧ sign x = false ∧ magBits x ≠ 0

/-- A legal frequency that does not compare equal to 0 is positive (R77). -/
theorem positive_of_legalFreq {f : Binary64} (h : legalFreq f = true) (h0 : eq f posZero = false) : Positive f := by
  obtain ⟨hf, hz⟩ := (legalFreq_iff f).1 h
  have hm : magBits f ≠ 0 := by
    intro hm
    have hzero : isNaN posZero = false ∧ orderKey posZero = 0 := by decide
    obtain ⟨hnan, hkey⟩ := hzero
    have hkf : orderKey f = 0 := by simp [orderKey, hm]
    simp [eq, isNaN_of_isFinite hf, hnan, hkey, hkf] at h0
  exact ⟨hf, Bool.eq_false_iff.2 fun hs => hm (hz hs), hm⟩

theorem lt_iff_magBits {a b : Binary64} (ha : Positive a) (hb : Positive b) :
    lt a b = true ↔ magBits a < magBits b := by
  obtain ⟨hfa, hsa, -⟩ := ha
  obtain ⟨hfb, hsb, -⟩ := hb
  simp [lt, isNaN_of_isFinite hfa, isNaN_of_isFinite hfb, orderKey, hsa, hsb]

/-- `c'` is the next positive encoding above `c`. -/
abbrev Neighbours (c c' : Binary64) : Prop := Positive c ∧ Positive c' ∧ magBits c' = magBits c + 1

/-- A predicate that passes from a positive encoding to every larger one. -/
def Upward (P : Binary64 → Prop) : Prop :=
  ∀ f f', Positive f → Positive f' → magBits f ≤ magBits f' → P f → P f'

/-- An upward predicate that begins to hold between two neighbouring encodings `c` and `c'` holds exactly above `c`, and
fails exactly below `c'`. -/
theorem Upward.threshold {P : Binary64 → Prop} (hP : Upward P) {c c' : Binary64} (h : Neighbours c c') (hfail : ¬ P c)
    (hhold : P c') {f : Binary64} (hf : Positive f) : (P f ↔ lt c f = true) ∧ (¬ P f ↔ lt f c' = true) := by
  obtain ⟨hc, hc', hnext⟩ := h
  rw [lt_iff_magBits hc hf, lt_iff_magBits hf hc']
  have above : magBits c < magBits f → P f := fun h => hP c' f hc' hf (by omega) hhold
  have below : magBits f ≤ magBits c → ¬ P f := fun h hp => hfail (hP f c hf hc h hp)
  constructor
  · exact ⟨fun hp => not_le.1 fun h => below h hp, above⟩
  · exact ⟨fun hp => by have := not_lt.1 (mt above hp); omega, fun h => below (by omega)⟩

/-! ## Products and quotients keep the order of their operands -/

theorem magBits_mul_finite {a b : Binary64} (ha : isFinite a = true) (hb : isFinite b = true) :
    magBits (mul a b) = roundMag (units a * units b) unitsPerOne :=
  (magBits_sign_of_pack (mul_finite a b ha hb)).1

theorem magBits_div_finite {a b : Binary64} (ha : isFinite a = true) (hb : isFinite b = true) (h0 : magBits b ≠ 0) :
    magBits (div a b) = roundMag (units a * unitsPerOne) (units b) :=
  (magBits_sign_of_pack (div_finite a b ha hb h0)).1

theorem magBits_div_of_isInf {a b : Binary64} (ha : isInf a = true) (hb : isFinite b = true) :
    magBits (div a b) = infMag := by
  have hnan : isNaN a = false := by
    rw [Bool.eq_false_iff, Ne, isNaN_iff, (isInf_iff a).1 ha]
    exact lt_irrefl _
  have e : div a b = pack (sign a != sign b) infMag := by
    simp [div, hnan, isNaN_of_isFinite hb, ha, isInf_of_isFinite hb]
  rw [e, magBits_pack _ _ (by decide)]

theorem units_pos {x : Binary64} (h : magBits x ≠ 0) : 0 < units x := by
  rw [← unitsOfMag_zero, units]
  exact unitsOfMag_strictMono (Nat.pos_of_ne_zero h)

theorem units_le_units {a b : Binary64} (h : magBits a ≤ magBits b) : units a ≤ units b :=
  unitsOfMag_strictMono.monotone h

theorem isNaN_eq_false_iff (x : Binary64) : isNaN x = false ↔ magBits x ≤ infMag := by
  rw [Bool.eq_false_iff, Ne, isNaN_iff, not_lt]

theorem isFinite_eq_false_iff (x : Binary64) : isFinite x = false ↔ infMag ≤ magBits x := by
  rw [Bool.eq_false_iff, Ne, isFinite_iff, not_lt]

theorem magBits_mul_le_mul {a b b' : Binary64} (ha : isFinite a = true) (hb : isFinite b = true)
    (hb' : isFinite b' = true) (h : magBits b ≤ magBits b') : magBits (mul a b) ≤ magBits (mul a b') := by
  rw [magBits_mul_finite ha hb, magBits_mul_finite ha hb']
  exact roundMag_mono unitsPerOne_pos unitsPerOne_pos
    (Nat.mul_le_mul_right _ (Nat.mul_le_mul_left _ (units_le_units h)))

theorem isNaN_mul {a b : Binary64} (ha : isFinite a = true) (hb : isFinite b = true) : isNaN (mul a b) = false := by
  rw [isNaN_eq_false_iff, magBits_mul_finite ha hb]
  exact roundMag_le _ _

theorem isNaN_div {a b : Binary64} (ha : isFinite a = true) (hb : isFinite b = true) (h0 : magBits b ≠ 0) :
    isNaN (div a b) = false := by
  rw [isNaN_eq_false_iff, magBits_div_finite ha hb h0]
  exact roundMag_le _ _

/-- A quotient grows with its dividend, which may be an infinity. -/
theorem magBits_div_le_div {a a' b : Binary64} (ha' : isNaN a' = false) (hb : isFinite b = true) (h0 : magBits b ≠ 0)
    (h : magBits a ≤ magBits a') : magBits (div a b) ≤ magBits (div a' b) := by
  rw [isNaN_eq_false_iff] at ha'
  rcases ha'.lt_or_eq with hlt | hinf
  · rw [magBits_div_finite ((isFinite_iff a).2 (h.trans_lt hlt)) hb h0, magBits_div_finite ((isFinite_iff a').2 hlt) hb h0]
    exact roundMag_mono (units_pos h0) (units_pos h0)
      (Nat.mul_le_mul_right _ (Nat.mul_le_mul_right _ (units_le_units h)))
  · rw [magBits_div_of_isInf ((isInf_iff a').2 hinf) hb]
    rcases (h.trans ha').lt_or_eq with hlt | hinf
    · rw [magBits_div_finite ((isFinite_iff a).2 hlt) hb h0]
      exact roundMag_le _ _
    · exact (magBits_div_of_isInf ((isInf_iff a).2 hinf) hb).le

/-- A quotient falls as its divisor grows. -/
theorem magBits_div_le_div_of_divisor {a b b' : Binary64} (ha : isFinite a = true) (hb : isFinite b = true)
    (h0 : magBits b ≠ 0) (hb' : isFinite b' = true) (h : magBits b ≤ magBits b') :
    magBits (div a b') ≤ magBits (div a b) := by
  have h0' : magBits b' ≠ 0 := by omega
  rw [magBits_div_finite ha hb h0, magBits_div_finite ha hb' h0']
  exact roundMag_mono (units_pos h0') (units_pos h0) (Nat.mul_le_mul_left _ (units_le_units h))

/-! ## The whole part of a quotient (R101, R102) -/

theorem units_one : units one = unitsPerOne := by decide +kernel

theorem floorInt_eq_zero_iff {x : Binary64} (hs : sign x = false) : floorInt x = 0 ↔ magBits x < magBits one := by
  rw [floorInt, hs, if_neg Bool.false_ne_true, Nat.div_eq_zero_iff_lt unitsPerOne_pos, ← units_one]
  exact unitsOfMag_strictMono.lt_iff_lt

/-- The whole part, taken of a finite value only, is 0 exactly below 1.0 and where the value is not finite. -/
theorem finiteFloor_eq_zero_iff {x : Binary64} (hs : sign x = false) :
    (if isFinite x then floorInt x else 0) = 0 ↔ magBits x < magBits one ∨ ¬ magBits x < infMag := by
  rw [← floorInt_eq_zero_iff hs, ← isFinite_iff]
  cases isFinite x <;> simp

/-! ## The wrap (R105) -/

/-- Between two values above 0 there are only finite ones, with the magnitude bits between theirs. -/
theorem between_of_ge_of_lt {a b t : Binary64} (ha : Positive a) (hb : Positive b) (hge : ge t a = true)
    (hlt : lt t b = true) : Positive t ∧ magBits a ≤ magBits t ∧ magBits t < magBits b := by
  obtain ⟨-, hsa, ha0⟩ := ha
  obtain ⟨hfb, hsb, -⟩ := hb
  rw [isFinite_iff] at hfb
  simp only [ge, lt, Bool.and_eq_true, decide_eq_true_eq, orderKey, hsa, hsb, Bool.false_eq_true, if_false] at hge hlt
  have hst : sign t = false := by
    by_contra hs
    rw [if_pos (Bool.not_eq_false _ ▸ hs)] at hge
    omega
  rw [hst, if_neg Bool.false_ne_true] at hge hlt
  exact ⟨⟨(isFinite_iff t).2 (by omega), hst, by omega⟩, by omega, by omega⟩

/-- With the quotient between 1 and 2 the remainder packs the same difference that the subtraction does. -/
theorem rem_eq_add_neg {t y z : Binary64} (ht : Positive t) (hy : Positive y) (hz : isFinite z = true)
    (hneg : sUnits z = -(units y : Int)) (hle : units y ≤ units t) (hlt : units t < 2 * units y) :
    rem t y = add t z := by
  obtain ⟨hft, hst, -⟩ := ht
  obtain ⟨hfy, -, hy0⟩ := hy
  have hmod : units t % units y = units t - units y := by
    rw [Nat.mod_eq_sub_mod hle, Nat.mod_eq_of_lt (by omega)]
  have hrem : rem t y = pack false (roundMag (units t - units y) 1) := by
    simp [rem, isNaN_of_isFinite hft, isNaN_of_isFinite hfy, isInf_of_isFinite hft, isInf_of_isFinite hfy, hy0, hst, hmod]
  have hsum : sUnits t + sUnits z = ((units t - units y : Nat) : Int) := by
    rw [hneg, sUnits, hst, if_neg Bool.false_ne_true]
    omega
  rw [hrem]
  by_cases h0 : units t - units y = 0
  · have hzero : pack false (roundMag 0 1) = posZero := by decide +kernel
    rw [add_of_sum_eq_zero hft hz (by rw [hsum, h0]; rfl), hst, h0, hzero, if_neg (by simp)]
  · rw [add_finite t z hft hz (by rw [hsum]; exact_mod_cast h0), hsum, Int.natAbs_natCast,
      decide_eq_false (not_lt.2 (Int.natCast_nonneg _))]

/-! ## A product truncated to a known integer (R14) -/

/-- A significand of at most 53 bits at an exponent that is not too large is a finite magnitude. -/
theorem exists_finite_mag {k m : Nat} (hk : k ≤ 2045) (h : m < 2 ^ 53) : ∃ b < infMag, unitsOfMag b = m * 2 ^ k := by
  obtain ⟨b, hb⟩ := exists_mag k m h
  refine ⟨b, unitsOfMag_strictMono.lt_iff_lt.1 ?_, hb⟩
  calc unitsOfMag b = m * 2 ^ k := hb
    _ < 2 ^ 53 * 2 ^ k := Nat.mul_lt_mul_of_pos_right h (by positivity)
    _ = 2 ^ (53 + k) := (pow_add 2 53 k).symm
    _ ≤ unitsOfMag infMag := (Nat.pow_le_pow_right two_pos (by omega)).trans_eq unitsOfMag_infMag.symm

/-- Rounding stays between two representable values. -/
theorem roundMag_between {num den lo hi : Nat} (hd : 0 < den) (hlo : lo ≤ infMag) (hhi : hi ≤ infMag)
    (h1 : unitsOfMag lo * den ≤ num) (h2 : num ≤ unitsOfMag hi * den) :
    lo ≤ roundMag num den ∧ roundMag num den ≤ hi :=
  ⟨(roundMag_unitsOfMag lo den hd hlo).symm.le.trans (roundMag_mono hd hd (Nat.mul_le_mul_right _ h1)),
    (roundMag_mono hd hd (Nat.mul_le_mul_right _ h2)).trans (roundMag_unitsOfMag hi den hd hhi).le⟩

theorem sign_of_value_pos {x : Binary64} (h : 0 < value x) : sign x = false := by
  by_contra hs
  have hzero := units_eq_zero_of_sign_true (Bool.not_eq_false _ ▸ hs) h.le
  rw [value_of_nonneg h.le, hzero, Nat.cast_zero, zero_div] at h
  exact lt_irrefl _ h

/-- A count of units in `n .. n + 15/16` of 1.0 keeps its whole part when it is rounded: the two ends are representable. -/
theorem units_roundMag_div_unitsPerOne {n p : Nat} (hn : 16 * n + 15 < 2 ^ 53) (hlo : n * unitsPerOne ≤ p)
    (hhi : 16 * p ≤ (16 * n + 15) * unitsPerOne) :
    unitsOfMag (roundMag (p * unitsPerOne) unitsPerOne) / unitsPerOne = n := by
  obtain ⟨lo, hlof, hlou⟩ := exists_finite_mag (k := 1074) (m := n) (by decide) (by omega)
  obtain ⟨hi, hhif, hhiu⟩ := exists_finite_mag (k := 1070) (by decide) hn
  have hone : unitsPerOne = 16 * 2 ^ 1070 := by decide +kernel
  have hp : p ≤ unitsOfMag hi := by
    rw [hhiu]
    rw [hone] at hhi
    generalize 2 ^ 1070 = V at *
    linarith
  obtain ⟨habove, hbelow⟩ := roundMag_between (num := p * unitsPerOne) unitsPerOne_pos hlof.le hhif.le
    (Nat.mul_le_mul_right _ (hlou.le.trans hlo)) (Nat.mul_le_mul_right _ hp)
  refine Nat.div_eq_of_lt_le (hlou.symm.le.trans (unitsOfMag_strictMono.monotone habove)) ?_
  calc unitsOfMag (roundMag (p * unitsPerOne) unitsPerOne)
      ≤ (16 * n + 15) * 2 ^ 1070 := (unitsOfMag_strictMono.monotone hbelow).trans hhiu.le
    _ < (n + 1) * 16 * 2 ^ 1070 := Nat.mul_lt_mul_of_pos_right (by omega) (by positivity)
    _ = (n + 1) * unitsPerOne := by rw [hone, Nat.mul_assoc]

/-- A product `A * r` in `n .. n + 15/16` is truncated to `n`: rounding cannot carry it to the next integer. -/
theorem truncInt_mul_ofInt_eq {A n : Nat} {r : Binary64} (hA : A < 2 ^ 53) (hn : 16 * n + 15 < 2 ^ 53)
    (hr : isFinite r = true) (hs : sign r = false) (hlo : n * unitsPerOne ≤ A * units r)
    (hhi : 16 * (A * units r) ≤ (16 * n + 15) * unitsPerOne) : truncInt (mul (ofInt A) r) = n := by
  obtain ⟨hfin, hsign, hunits⟩ := ofInt_spec A (by simpa using hA)
  have hprod : units (ofInt A) * units r = A * units r * unitsPerOne := by
    rw [hunits, Int.natAbs_natCast]
    ring
  obtain ⟨hmag, hsgn⟩ := magBits_sign_of_pack (hprod ▸ mul_finite (ofInt A) r hfin hr)
  rw [truncInt, hsgn, hsign, hs, units, hmag, units_roundMag_div_unitsPerOne hn hlo hhi]
  simp

end Sys2Proof.F64

namespace Sys2Proof.Sine

open Sys2Proof.F64

/-! ## The sine within its margin (R15) -/

/-- How far from the series at `x` R15 (c) lets the sine of `x` lie (log entry 7). -/
def margin (x : Binary64) : ℚ :=
  ulp (mag (series (value x)) + seriesError (value x)) + seriesError (value x)

theorem abs_sin_sub_series_le {x : Binary64} (h : inRange x = true) : |value (sin x) - series (value x)| ≤ margin x := by
  have hnear := sin_near h
  rwa [near, decide_eq_true_eq, mag_eq_abs] at hnear

/-- The sample at `x` is `n` under every sine that R15 allows: `A * r` lies in `n .. n + 15/16` for every `r` within the
margin. -/
abbrev SampleDetermined (A n : Nat) (x : Binary64) : Prop :=
  0 < n ∧ n ≤ A ∧ inRange x = true ∧
    (n : ℚ) ≤ A * (series (value x) - margin x) ∧ A * (series (value x) + margin x) ≤ n + 15 / 16

end Sys2Proof.Sine

namespace Sys2Proof.Machine

open Sys2Proof.F64

/-! ## Degenerate frequencies (R101 to R103) -/

theorem fs_finite : isFinite Config.fs = true := by decide

/-- `FS / f` and its half fall as `f` grows; an infinite quotient stays infinite when it is halved. -/
theorem quotient_falls {f f' : Binary64} (hf : Positive f) (hf' : Positive f') (h : magBits f ≤ magBits f') :
    magBits (div Config.fs f') ≤ magBits (div Config.fs f) ∧
    magBits (div (div Config.fs f') two) ≤ magBits (div (div Config.fs f) two) := by
  obtain ⟨hfin, -, h0⟩ := hf
  obtain ⟨hfin', -, -⟩ := hf'
  have hq := magBits_div_le_div_of_divisor fs_finite hfin h0 hfin' h
  exact ⟨hq, magBits_div_le_div (isNaN_div fs_finite hfin h0) (by decide) (by decide) hq⟩

theorem quotient_lt_upward (k : Nat) : Upward fun f => magBits (div Config.fs f) < k :=
  fun _ _ hf hf' h => (quotient_falls hf hf' h).1.trans_lt

theorem halfQuotient_lt_upward (k : Nat) : Upward fun f => magBits (div (div Config.fs f) two) < k :=
  fun _ _ hf hf' h => (quotient_falls hf hf' h).2.trans_lt

theorem phaseInc_infinite_upward : Upward fun f => isFinite (phaseInc f) = false := by
  rintro f f' ⟨hf, -, -⟩ ⟨hf', -, -⟩ h
  have hp : isFinite Config.twoPi = true := by decide
  have hprod := magBits_mul_le_mul hp hf hf' h
  simp only [isFinite_eq_false_iff]
  exact fun hinf => hinf.trans (magBits_div_le_div (isNaN_mul hp hf') fs_finite (by decide) hprod)

theorem sign_quotient {f : Binary64} (hf : Positive f) : sign (div Config.fs f) = false := by
  obtain ⟨hfin, hs, h0⟩ := hf
  rw [sign_div (isNaN_of_isFinite fs_finite) hfin h0, hs]
  decide

theorem sign_halfQuotient {f : Binary64} (hf : Positive f) : sign (div (div Config.fs f) two) = false := by
  have hq := sign_quotient hf
  obtain ⟨hfin, -, h0⟩ := hf
  rw [sign_div (isNaN_div fs_finite hfin h0) (by decide) (by decide), hq]
  decide

theorem halfPeriod_eq_zero_iff {f : Binary64} (h0 : F64.eq f posZero = false) (hf : Positive f) :
    halfPeriod f = 0 ↔
      magBits (div (div Config.fs f) two) < magBits one ∨ ¬ magBits (div (div Config.fs f) two) < infMag := by
  rw [← finiteFloor_eq_zero_iff (sign_halfQuotient hf), halfPeriod, h0, if_neg Bool.false_ne_true]

theorem period_eq_zero_iff {f : Binary64} (h0 : F64.eq f posZero = false) (hf : Positive f) :
    period f = 0 ↔ magBits (div Config.fs f) < magBits one ∨ ¬ magBits (div Config.fs f) < infMag := by
  rw [← finiteFloor_eq_zero_iff (sign_quotient hf), period, h0, if_neg Bool.false_ne_true]

/-! ## The step operations on a state, guard and advance (R100) -/

theorem sineStep_guard {s : State} (h : F64.eq s.freq posZero = true ∨ isFinite (phaseInc s.freq) = false) :
    sineStep s = s.putSample 0 := by
  unfold sineStep
  rw [sineOp_guard h]
  rfl

theorem triStep_guard {s : State} (h : halfPeriod s.freq = 0) : triStep s = s.putSample 0 := by
  unfold triStep
  rw [triOp_guard h]
  rfl

theorem sawStep_guard {s : State} (h : period s.freq = 0) : sawStep s = s.putSample 0 := by
  unfold sawStep
  rw [sawOp_guard h]
  rfl

theorem sqrStep_guard {s : State} (h : halfPeriod s.freq = 0) : sqrStep s = s.putSample 0 := by
  unfold sqrStep
  rw [sqrOp_guard h]
  rfl

/-- The phase of the next sample (R104). -/
def nextPhase (s : State) : Binary64 := wrapPhase (add s.theta (phaseInc s.freq))

theorem sineStep_advance {s : State} (h0 : F64.eq s.freq posZero = false) (h : isFinite (phaseInc s.freq) = true) :
    sineStep s = (s.putTheta (nextPhase s)).putSample (sineSample Sine.sin s.ampValue (nextPhase s)) := by
  unfold sineStep
  rw [sineOp_advance h0 h]
  rfl

theorem triStep_advance {s : State} (h : halfPeriod s.freq ≠ 0) :
    triStep s = (s.putTri (triNext s.ampValue (2 * s.ampValue / halfPeriod s.freq) s.tri)).putSample
      (clamp (triNext s.ampValue (2 * s.ampValue / halfPeriod s.freq) s.tri).level (-(s.ampValue : Int)) s.ampValue) := by
  unfold triStep
  rw [triOp_advance h]

theorem sawStep_advance {s : State} (h : period s.freq ≠ 0) :
    sawStep s = (s.putSaw (sawNext s.ampValue (2 * s.ampValue / period s.freq) s.saw)).putSample
      (clamp (sawNext s.ampValue (2 * s.ampValue / period s.freq) s.saw).level (-(s.ampValue : Int)) s.ampValue) := by
  unfold sawStep
  rw [sawOp_advance h]

theorem sqrStep_advance {s : State} (h : halfPeriod s.freq ≠ 0) :
    sqrStep s = (s.putSqr (sqrNext (halfPeriod s.freq) s.sqr)).putSample
      ((sqrNext (halfPeriod s.freq) s.sqr).sign.toInt * s.ampValue) := by
  unfold sqrStep
  rw [sqrOp_advance h]

/-! ## A run of square steps (R114) -/

theorem sqrStep_iterate_freq (s : State) (i : Nat) : (sqrStep^[i] s).freq = s.freq := by
  induction i with
  | zero => rfl
  | succ i ih => rw [Function.iterate_succ_apply']; exact ih

/-- One more square step of the run, at the half-period of its first state. -/
theorem sqrStep_iterate_succ {s : State} (h : halfPeriod s.freq ≠ 0) (i : Nat) :
    (sqrStep^[i + 1] s).sqr = sqrNext (halfPeriod s.freq) (sqrStep^[i] s).sqr := by
  have hf := sqrStep_iterate_freq s i
  rw [Function.iterate_succ_apply', sqrStep_advance (hf.symm ▸ h), hf]
  rfl

theorem sqrNext_count (hp : Nat) (q : Sqr) : (sqrNext hp q).count = (q.count + 1) % hp := by
  rw [sqrNext, Nat.mod_add_mod]

theorem sqrNext_flips_iff (hp : Nat) (q : Sqr) : (sqrNext hp q).sign ≠ q.sign ↔ q.count % hp = 0 := by
  rw [sqrNext]
  split_ifs with h <;> simp [h]

/-- The count before the `i`-th square step is the first count plus `i`, up to whole half-periods. -/
theorem sqrStep_iterate_count {s : State} (h : halfPeriod s.freq ≠ 0) (i : Nat) :
    (sqrStep^[i] s).sqr.count % halfPeriod s.freq = (s.sqr.count + i) % halfPeriod s.freq := by
  induction i with
  | zero => rfl
  | succ i ih => rw [sqrStep_iterate_succ h, sqrNext_count, Nat.mod_mod, Nat.add_mod, ih, ← Nat.add_mod, Nat.add_assoc]

/-! ## Sine samples that every sine of R15 gives (R106) -/

theorem sineSample_of_determined {A n : Nat} {x : Binary64} (hA : A ≤ Config.ampMax)
    (h : Sine.SampleDetermined A n x) : sineSample Sine.sin A x = n := by
  obtain ⟨hn, hnA, hx, hlo, hhi⟩ := h
  have hmax : Config.ampMax < 2 ^ 15 := by decide
  obtain ⟨hfin, -⟩ := sin_small x (Sine.inRange_value hx).1
  obtain ⟨hbelow, habove⟩ := abs_le.1 (Sine.abs_sin_sub_series_le hx)
  have hA0 : (0 : ℚ) ≤ A := Nat.cast_nonneg A
  have hn0 : (0 : ℚ) < n := by exact_mod_cast hn
  have hlo' : (n : ℚ) ≤ A * value (Sine.sin x) := hlo.trans (mul_le_mul_of_nonneg_left (by linarith) hA0)
  have hhi' : A * value (Sine.sin x) ≤ n + 15 / 16 := (mul_le_mul_of_nonneg_left (by linarith) hA0).trans hhi
  have hpos : 0 < value (Sine.sin x) := pos_of_mul_pos_right (hn0.trans_le hlo') hA0
  have hs : sign (Sine.sin x) = false := sign_of_value_pos hpos
  rw [value_of_sign_false hs, ← mul_div_assoc] at hlo' hhi'
  have hU := unitsPerOne_cast_pos
  rw [le_div_iff₀ hU] at hlo'
  rw [div_le_iff₀ hU] at hhi'
  refine truncInt_mul_ofInt_eq (by omega) (by omega) hfin hs (by exact_mod_cast hlo') ?_
  have : (16 : ℚ) * (A * units (Sine.sin x)) ≤ (16 * n + 15) * unitsPerOne := by linarith
  exact_mod_cast this

/-- The reset state with another phase and sample. -/
def resetWithPhase (θ : Binary64) (v : Int) : State := (State.reset.putTheta θ).putSample v

theorem resetWithPhase_freq (θ : Binary64) (v : Int) : (resetWithPhase θ v).freq = Config.defaultFreq := rfl

theorem resetWithPhase_ampValue (θ : Binary64) (v : Int) : (resetWithPhase θ v).ampValue = 5000 := rfl

theorem resetWithPhase_advance (θ t : Binary64) (v w : Int) :
    ((resetWithPhase θ v).putTheta t).putSample w = resetWithPhase t w := rfl

/-- One sine step at 440 Hz and amplitude 5000, where the sample does not depend on the sine. -/
theorem sineStep_resetWithPhase {θ t : Binary64} {v : Int} {n : Nat}
    (ht : wrapPhase (add θ (phaseInc Config.defaultFreq)) = t)
    (hdet : Sine.SampleDetermined 5000 n t) : sineStep (resetWithPhase θ v) = resetWithPhase t n := by
  have hguard : F64.eq Config.defaultFreq posZero = false ∧ isFinite (phaseInc Config.defaultFreq) = true := by
    decide +kernel
  rw [← resetWithPhase_freq θ v] at ht hguard
  rw [sineStep_advance hguard.1 hguard.2, show nextPhase (resetWithPhase θ v) = t from ht, resetWithPhase_ampValue,
    sineSample_of_determined (by decide) hdet, resetWithPhase_advance]

end Sys2Proof.Machine

namespace Sys2Proof.OscillatorRules

open Sys2Proof.F64 Sys2Proof.Machine

/-- Settles O23: each quotient falls and the increment grows with the frequency, so each test turns once, between the two
neighbouring encodings at which it is evaluated. -/
theorem degenerateFrequencies : Obligations.DegenerateFrequencies := by
  unfold Obligations.DegenerateFrequencies
  intro f hlegal h0
  have hf := positive_of_legalFreq hlegal h0
  have atLowest : Neighbours 0x00E5888000000000#64 0x00E5888000000001#64 := by decide
  have at22050 : Neighbours 0x40D5888000000000#64 0x40D5888000000001#64 := by decide
  have at44100 : Neighbours 0x40E5888000000000#64 0x40E5888000000001#64 := by decide
  have atHighest : Neighbours 0x7FC45F306DC9C882#64 0x7FC45F306DC9C883#64 := by decide
  refine ⟨?_, ?_, ?_, phaseInc_sign hlegal h0⟩
  · have below1 := (halfQuotient_lt_upward (magBits one)).threshold at22050 (by decide +kernel) (by decide +kernel) hf
    have finite := (halfQuotient_lt_upward infMag).threshold atLowest (by decide +kernel) (by decide +kernel) hf
    rw [halfPeriod_eq_zero_iff h0 hf, below1.1, finite.2]
  · have below1 := (quotient_lt_upward (magBits one)).threshold at44100 (by decide +kernel) (by decide +kernel) hf
    have finite := (quotient_lt_upward infMag).threshold atLowest (by decide +kernel) (by decide +kernel) hf
    rw [period_eq_zero_iff h0 hf, below1.1, finite.2]
  · exact (phaseInc_infinite_upward.threshold atHighest (by decide +kernel) (by decide +kernel) hf).1

/-- Settles O28: in units of 2^-1074 the quotient is between 1 and 2. -/
theorem remainderIsOneSubtractionBelowTwoTurns : Obligations.RemainderIsOneSubtractionBelowTwoTurns := by
  unfold Obligations.RemainderIsOneSubtractionBelowTwoTurns
  intro t hge hlt
  have hone : Positive Config.twoPi := by decide
  have htwo : Positive (mul two Config.twoPi) := by decide +kernel
  have hunits : units (mul two Config.twoPi) = 2 * units Config.twoPi := by decide +kernel
  have hneg : sUnits 0xC01921FB54442D18#64 = -(units Config.twoPi : Int) := by decide +kernel
  obtain ⟨ht, hle, hbelow⟩ := between_of_ge_of_lt hone htwo hge hlt
  exact rem_eq_add_neg ht hone (by decide) hneg (units_le_units hle) (hunits ▸ unitsOfMag_strictMono hbelow)

/-- Settles O35, by induction on the steps of the run. -/
theorem squareAgreesWithThePerCallFormula : Obligations.SquareAgreesWithThePerCallFormula := by
  unfold Obligations.SquareAgreesWithThePerCallFormula
  intro s h
  refine ⟨fun i => ⟨sqrStep_iterate_count h i, ?_⟩, fun n hn => ?_⟩
  · rw [sqrStep_iterate_succ h, sqrNext_flips_iff, sqrStep_iterate_count h, Nat.add_comm]
  · obtain ⟨i, rfl⟩ := Nat.exists_eq_add_of_le' hn
    rw [sqrStep_iterate_succ h, sqrNext_count, Nat.add_mod, sqrStep_iterate_count h, ← Nat.add_mod, Nat.add_assoc,
      Nat.add_comm]

/-- Settles O24: the frequencies are literals, so both quotients are evaluated on them. -/
theorem periodExamples : Obligations.PeriodExamples := by
  unfold Obligations.PeriodExamples
  decide +kernel

/-- Settles O25: the frequencies are literals, so the increment is evaluated on them. -/
theorem incrementExamples : Obligations.IncrementExamples := by
  unfold Obligations.IncrementExamples
  decide +kernel

/-- Settles O26: guard and advance of the sine, whose next phase is the wrapped sum. -/
theorem sineStepAdvancesThePhase : Obligations.SineStepAdvancesThePhase := by
  unfold Obligations.SineStepAdvancesThePhase
  exact fun s => ⟨fun h => congrArg Host.Outcome.next (sineStep_guard h),
    fun h0 h => congrArg Host.Outcome.next (sineStep_advance h0 h)⟩

/-- Settles O29: the phases do not depend on the sine, and at each of them every sine within R15's margin gives one sample. -/
theorem sineWorkedExample : Obligations.SineWorkedExample := by
  unfold Obligations.SineWorkedExample
  have h1 : sineStep State.reset = resetWithPhase 0x3FB00C6938F15E29#64 313 :=
    sineStep_resetWithPhase (θ := posZero) (v := 0) (by decide +kernel) (by decide +kernel)
  have h2 : sineStep^[2] State.reset = resetWithPhase 0x3FC00C6938F15E29#64 625 := by
    rw [Function.iterate_succ_apply', Function.iterate_one, h1]
    exact sineStep_resetWithPhase (by decide +kernel) (by decide +kernel)
  have h3 : sineStep^[3] State.reset = resetWithPhase 0x3FC8129DD56A0D3E#64 934 := by
    rw [Function.iterate_succ_apply', h2]
    exact sineStep_resetWithPhase (by decide +kernel) (by decide +kernel)
  have h4 : sineStep^[4] State.reset = resetWithPhase 0x3FD00C6938F15E29#64 1240 := by
    rw [Function.iterate_succ_apply', h3]
    exact sineStep_resetWithPhase (by decide +kernel) (by decide +kernel)
  rw [h1, h2, h3, h4]
  exact ⟨rfl, rfl, rfl, rfl, rfl, rfl⟩

/-- Settles O30: guard and advance of the triangle, and its first step after reset. -/
theorem triStepMovesTheLevel : Obligations.TriStepMovesTheLevel := by
  unfold Obligations.TriStepMovesTheLevel
  have hfirst : triStep State.reset = { State.reset with tri := { level := 200, sign := .plus }, sample := 200 } := by
    decide +kernel
  refine ⟨by decide, congrArg Host.Outcome.next hfirst, fun s => ⟨fun h => ?_, fun h => ?_⟩⟩
  · exact congrArg Host.Outcome.next (triStep_guard h)
  · exact congrArg Host.Outcome.next (triStep_advance h)

/-- Settles O31: guard and advance of the sawtooth, and its step at 441 Hz from level 0. -/
theorem sawStepMovesTheLevel : Obligations.SawStepMovesTheLevel := by
  unfold Obligations.SawStepMovesTheLevel
  refine ⟨by decide, fun s hfreq hamp hsaw => ?_, fun s => ⟨fun h => ?_, fun h => ?_⟩⟩
  · have hop : sawOp s.freq s.ampValue s.saw = ({ level := 100 }, 100) := by
      rw [State.ampValue, hfreq, hamp, hsaw]
      decide +kernel
    have hstep : sawStep s = (s.putSaw { level := 100 }).putSample 100 := by
      unfold sawStep
      rw [hop]
    exact congrArg Host.Outcome.next hstep
  · exact congrArg Host.Outcome.next (sawStep_guard h)
  · exact congrArg Host.Outcome.next (sawStep_advance h)

/-- Settles O32: guard and advance of the square, and its first step after reset. -/
theorem sqrStepCountsAndFlips : Obligations.SqrStepCountsAndFlips := by
  unfold Obligations.SqrStepCountsAndFlips
  have hfirst : sqrStep State.reset = { State.reset with sqr := { sign := .minus, count := 1 }, sample := -5000 } := by
    decide +kernel
  refine ⟨by decide, congrArg Host.Outcome.next hfirst, fun s => ⟨fun h => ?_, fun h => ?_⟩⟩
  · exact congrArg Host.Outcome.next (sqrStep_guard h)
  · exact congrArg Host.Outcome.next (sqrStep_advance h)

/-- Settles O52: frequency 0 of either sign is degenerate for all four. -/
theorem silenceHoldsEveryOscillator : Obligations.SilenceHoldsEveryOscillator := by
  unfold Obligations.SilenceHoldsEveryOscillator
  intro s hs
  have h0 : F64.eq s.freq posZero = true := by
    rcases hs with h | h <;> rw [h] <;> decide
  have hhalf := halfPeriod_of_eq_zero h0
  exact ⟨congrArg Host.Outcome.next (sineStep_guard (Or.inl h0)), congrArg Host.Outcome.next (triStep_guard hhalf),
    congrArg Host.Outcome.next (sawStep_guard (period_of_eq_zero h0)), congrArg Host.Outcome.next (sqrStep_guard hhalf)⟩

end Sys2Proof.OscillatorRules
end

section
/-! SUPPORT. The statements of 41_render.md: RENDER in every state (R131, R132, R137, R138), where the render engine's steps
stop (R133, R136), a request run to its end (R179), and the same sound from one call as from two (R139). -/

namespace Sys2Proof.Machine

/-! ## RENDER from an idle block (R131, R137) -/

theorem exec_render_malformed {s : State} {len : BitVec 32} (hidle : s.rnd.active = false) (hlen : len.toNat % 4 ≠ 0) :
    exec (.render len) s = .next (malformed len.toNat s) :=
  (if_neg (Bool.eq_false_iff.1 hidle)).trans (if_pos hlen)

theorem exec_render_starts {s : State} {len : BitVec 32} (hidle : s.rnd.active = false) (hlen : len.toNat % 4 = 0) :
    exec (.render len) s = .next (startRequest len.toNat s) :=
  (if_neg (Bool.eq_false_iff.1 hidle)).trans (if_neg (not_not.2 hlen))

/-! ## Where the render engine's steps stop (R133, R136; log entries 5 and 9) -/

theorem exec_frame_outside {s : State} (he : frameEnabled s = true) (hroom : s.out.len < s.rnd.cursor + 4) :
    exec .frame s = .fault (.outsideBuffer s.rnd.cursor) := by
  show execFrame s = _
  rw [execFrame_eq, if_pos he, if_neg (Nat.not_le.2 hroom)]

theorem exec_frame_notEnabled {s : State} (h : frameEnabled s = false) : exec .frame s = .refused .notEnabled :=
  if_neg (Bool.eq_false_iff.1 h)

theorem exec_complete_notEnabled {s : State} (h : completeEnabled s = false) :
    exec .complete s = .refused .notEnabled :=
  if_neg (Bool.eq_false_iff.1 h)

/-! ## Several frames in a row -/

theorem frameNext_iterate_putInputs (n : Nat) (s : State) (moves : List Turn) :
    frameNext^[n] (s.putInputs moves) = (frameNext^[n] s).putInputs moves :=
  (Function.Semiconj.iterate_right (f := fun s : State => s.putInputs moves)
    (fun s => (frameNext_putInputs s moves).symm) n s).symm

theorem frameNext_iterate_rnd (n : Nat) (s : State) :
    (frameNext^[n] s).rnd = { s.rnd with cursor := s.rnd.cursor + 4 * n, remaining := s.rnd.remaining - n } := by
  induction n with
  | zero => rfl
  | succ n ih => rw [Function.iterate_succ_apply', frameNext, State.putRnd_rnd, ih]; rfl

theorem frameNext_iterate_out_len (n : Nat) (s : State) : (frameNext^[n] s).out.len = s.out.len := by
  induction n with
  | zero => rfl
  | succ n ih => rw [Function.iterate_succ_apply', ← ih]; rfl

theorem frameNext_iterate_returned (n : Nat) (s : State) : (frameNext^[n] s).returned = s.returned := by
  induction n with
  | zero => rfl
  | succ n ih =>
    obtain ⟨-, -, -, -, -, hkeep, -⟩ := stepSelected_keeps (frameNext^[n] s)
    rw [Function.iterate_succ_apply', ← ih]
    exact hkeep

theorem frameNext_iterate_enabled {s : State} (hactive : s.rnd.active = true) {n : Nat} (hn : n < s.rnd.remaining) :
    frameEnabled (frameNext^[n] s) = true := by
  rw [frameEnabled_iff, frameNext_iterate_rnd]
  exact ⟨hactive, Nat.sub_pos_of_lt hn⟩

theorem frameNext_iterate_inv {s : State} (h : s.Inv) (hactive : s.rnd.active = true) {n : Nat}
    (hn : n ≤ s.rnd.remaining) : (frameNext^[n] s).Inv := by
  induction n with
  | zero => exact h
  | succ n ih =>
    rw [Function.iterate_succ_apply']
    exact frameNext_inv (ih (Nat.le_of_succ_le hn)) (frameNext_iterate_enabled hactive hn)

/-! ## Runs of the render engine (R179) -/

theorem run_add {s t : State} {a : Nat} (h : (Host.Core.run core a s : Host.Outcome State Fault Refusal) = .next t)
    (b : Nat) : (Host.Core.run core (a + b) s : Host.Outcome State Fault Refusal) = Host.Core.run core b t := by
  have general : ∀ (M : Host.Core) (a : Nat) (s t : M.State), M.run a s = .next t → M.run (a + b) s = M.run b t := by
    intro M a
    induction a with
    | zero =>
      intro s t h
      rw [Nat.zero_add, Host.Outcome.next.inj h]
    | succ a ih =>
      intro s t h
      rw [Host.Core.run] at h
      rw [Nat.add_right_comm, Host.Core.run]
      cases hstep : M.step s with
      | next u => rw [hstep] at h; exact ih u t h
      | fault r => rw [hstep] at h; cases h
      | refused r => rw [hstep] at h; cases h
  exact general core a s t h

/-- The next `n` steps are the render engine's: so are the moves to come as far as they are listed, and past their end the
render engine moves alone (R59; log entry 1). -/
def EngineMoves (n : Nat) (moves : List Turn) : Prop := ∀ m ∈ moves.take n, m = .engine

theorem engineMoves_nil (n : Nat) : EngineMoves n [] := by simp [EngineMoves]

theorem engineMoves_replicate (n : Nat) (moves : List Turn) : EngineMoves n (List.replicate n .engine ++ moves) := by
  simp [EngineMoves]

theorem engineMoves_add {a b : Nat} {moves : List Turn} :
    EngineMoves (a + b) moves ↔ EngineMoves a moves ∧ EngineMoves b (moves.drop a) := by
  simp only [EngineMoves, List.take_add, List.mem_append, or_imp, forall_and]

theorem step_engineMoves {s : State} {moves : List Turn} (hmoves : EngineMoves 1 moves) :
    step (s.putInputs moves) = engineTurn (s.putInputs (moves.drop 1)) := by
  match moves with
  | [] => exact step_idle rfl
  | m :: rest =>
    obtain rfl : m = .engine := hmoves m List.mem_cons_self
    exact step_engine rfl

theorem engineTurn_frame_putInputs {s : State} (h : s.Inv) (he : frameEnabled s = true) (moves : List Turn) :
    engineTurn (s.putInputs moves) = .next ((frameNext s).putInputs moves) :=
  (engineTurn_frame (s := s.putInputs moves) he).trans (exec_frame_putInputs he (frame_fits h he) moves)

theorem engineTurn_complete_putInputs {s : State} (he : completeEnabled s = true) (moves : List Turn) :
    engineTurn (s.putInputs moves) = .next ((completeNext s).putInputs moves) :=
  (engineTurn_complete (s := s.putInputs moves) he).trans (exec_complete (s := s.putInputs moves) he)

/-- The render engine's moves each take one frame while frames remain. -/
theorem run_frames {n : Nat} {s : State} {moves : List Turn} (h : s.Inv) (hactive : s.rnd.active = true)
    (hn : n ≤ s.rnd.remaining) (hmoves : EngineMoves n moves) :
    (Host.Core.run core n (s.putInputs moves) : Host.Outcome State Fault Refusal) =
      .next ((frameNext^[n] s).putInputs (moves.drop n)) := by
  induction n with
  | zero => rfl
  | succ n ih =>
    obtain ⟨hbefore, hlast⟩ := engineMoves_add.1 hmoves
    have hinv := frameNext_iterate_inv h hactive (Nat.le_of_succ_le hn)
    have he := frameNext_iterate_enabled hactive hn
    rw [run_add (ih (Nat.le_of_succ_le hn) hbefore) 1, run_one, step_engineMoves hlast, List.drop_drop,
      Function.iterate_succ_apply']
    exact engineTurn_frame_putInputs hinv he _

/-! ## A request from its command on (R131, R136, R179) -/

/-- `n` frames of a request of `len` bytes taken. -/
def requestAfter (len n : Nat) (s : State) : State := frameNext^[n] (startRequest len s)

/-- A request of `len` bytes run to its end. -/
def rendered (len : Nat) (s : State) : State := completeNext (requestAfter len (len / 4) s)

theorem rendered_frames (n : Nat) (s : State) : rendered (4 * n) s = completeNext (requestAfter (4 * n) n s) := by
  rw [rendered, Nat.mul_div_cancel_left n (by decide)]

theorem requestAfter_rnd (len n : Nat) (s : State) :
    (requestAfter len n s).rnd = { active := true, len, remaining := len / 4 - n, cursor := 4 * n } := by
  rw [requestAfter, frameNext_iterate_rnd]
  exact congrArg (fun c => Rnd.mk true len (len / 4 - n) c) (Nat.zero_add _)

theorem requestAfter_inv {s : State} (h : s.Inv) {len : Nat} (hlen : len < 2 ^ 32) (hwhole : len % 4 = 0) {n : Nat}
    (hn : n ≤ len / 4) : (requestAfter len n s).Inv :=
  frameNext_iterate_inv (startRequest_inv h hlen hwhole) rfl hn

theorem requestAfter_completeEnabled (len : Nat) (s : State) : completeEnabled (requestAfter len (len / 4) s) = true := by
  rw [completeEnabled_iff, requestAfter_rnd]
  exact ⟨rfl, Nat.sub_self _⟩

theorem rendered_idle (len : Nat) (s : State) : (rendered len s).rnd.active = false := rfl

theorem rendered_returned (len : Nat) (s : State) :
    (rendered len s).returned = s.returned ++ [(rendered len s).out] :=
  congrArg (· ++ [(rendered len s).out]) (frameNext_iterate_returned (len / 4) (startRequest len s))

theorem rendered_out_len (len : Nat) (s : State) : (rendered len s).out.len = len :=
  frameNext_iterate_out_len (len / 4) (startRequest len s)

theorem rendered_inv {s : State} (h : s.Inv) {len : Nat} (hlen : len < 2 ^ 32) (hwhole : len % 4 = 0) :
    (rendered len s).Inv :=
  completeNext_inv (requestAfter_inv h hlen hwhole le_rfl) (requestAfter_completeEnabled len s)

theorem rendered_out_complete {s : State} (h : s.Inv) {len : Nat} (hlen : len < 2 ^ 32) (hwhole : len % 4 = 0) :
    (rendered len s).out.Complete :=
  out_complete (s := requestAfter len (len / 4) s) (requestAfter_inv h hlen hwhole le_rfl)
    (requestAfter_completeEnabled len s)

section
variable {s : State} {w : CmdWord} {len : BitVec 32} {moves : List Turn} (h : s.Inv) (hidle : s.rnd.active = false)
  (hw : decodeCommand w = .ok (.render len)) (hwhole : len.toNat % 4 = 0)
include h hidle hw hwhole

theorem run_request {n : Nat} (hn : n ≤ len.toNat / 4) (hmoves : EngineMoves n moves) :
    (Host.Core.run core (n + 1) (s.putInputs (.command w :: moves)) : Host.Outcome State Fault Refusal) =
      .next ((requestAfter len.toNat n s).putInputs (moves.drop n)) := by
  have hstep : step (s.putInputs (.command w :: moves)) = .next ((startRequest len.toNat s).putInputs moves) :=
    (step_command rfl).trans ((commandTurn_of_decode hw _).trans (exec_render_starts hidle hwhole))
  rw [run_next hstep]
  exact run_frames (startRequest_inv h len.isLt hwhole) rfl hn hmoves

theorem run_request_complete (hmoves : EngineMoves (len.toNat / 4 + 1) moves) :
    (Host.Core.run core (len.toNat / 4 + 2) (s.putInputs (.command w :: moves)) : Host.Outcome State Fault Refusal) =
      .next ((rendered len.toNat s).putInputs (moves.drop (len.toNat / 4 + 1))) := by
  obtain ⟨hframes, hlast⟩ := engineMoves_add.1 hmoves
  have he := requestAfter_completeEnabled len.toNat s
  rw [run_add (run_request h hidle hw hwhole le_rfl hframes) 1, run_one, step_engineMoves hlast, List.drop_drop]
  exact engineTurn_complete_putInputs he _

end

theorem decodeCommand_renderCall {n : Nat} (hn : n < 2 ^ 30) :
    decodeCommand (Operands.command 0x10#8 (BitVec.ofNat 64 (4 * n))) = .ok (.render (BitVec.ofNat 32 (4 * n))) := by
  have hword : BitVec.ofNat 64 (4 * n) = (BitVec.ofNat 32 (4 * n)).setWidth 64 := by
    apply BitVec.eq_of_toNat_eq
    simp only [BitVec.toNat_ofNat, BitVec.toNat_setWidth]
    omega
  rw [hword, decodeCommand_render]

/-- A render call leaves the moves listed after its own (R179). -/
theorem run_renderCall {s : State} (h : s.Inv) (hidle : s.rnd.active = false) {n : Nat} (hn : n < 2 ^ 30)
    (moves : List Turn) :
    (Host.Core.run core (n + 2) (s.putInputs (renderCall n ++ moves)) : Host.Outcome State Fault Refusal) =
      .next ((rendered (4 * n) s).putInputs moves) := by
  have hlen : (BitVec.ofNat 32 (4 * n)).toNat = 4 * n := Nat.mod_eq_of_lt (by omega)
  have hframes : 4 * n / 4 = n := Nat.mul_div_cancel_left n (by decide)
  have hrun := run_request_complete h hidle (decodeCommand_renderCall hn) (by omega)
    (moves := List.replicate (n + 1) .engine ++ moves)
  rw [hlen, hframes, List.drop_left' List.length_replicate] at hrun
  exact hrun (engineMoves_replicate _ _)

/-! ## The sound: what a frame reads and writes of the parameters and oscillators (R133, R139) -/

/-- A state with its parameters and oscillator records, and everything else as after reset. -/
def State.voice (s : State) : State :=
  { State.reset with
    wave := s.wave, freq := s.freq, amp := s.amp, theta := s.theta, tri := s.tri, saw := s.saw, sqr := s.sqr }

/-- The parameters and oscillators after one frame. -/
def voiceNext (v : State) : State := (stepSelected v).voice

/-- A step operation reads the parameters and the oscillators only. -/
theorem stepSelected_voice (s : State) :
    (stepSelected s).voice = voiceNext s.voice ∧ (stepSelected s).sample = (stepSelected s.voice).sample := by
  have hwave : s.voice.wave = s.wave := rfl
  rw [voiceNext, stepSelected, stepSelected, hwave]
  cases Waveform.ofCode s.wave <;> exact ⟨rfl, rfl⟩

theorem oscillators_of_voice_eq {s t : State} (h : s.voice = t.voice) :
    s.theta = t.theta ∧ s.tri = t.tri ∧ s.saw = t.saw ∧ s.sqr = t.sqr :=
  ⟨(congrArg State.theta h :), (congrArg State.tri h :), (congrArg State.saw h :), (congrArg State.sqr h :)⟩

theorem frameNext_iterate_voice (n : Nat) (s : State) : (frameNext^[n] s).voice = voiceNext^[n] s.voice :=
  Function.Semiconj.iterate_right (f := State.voice) (ga := frameNext) (fun s => (stepSelected_voice s).1) n s

theorem rendered_voice (n : Nat) (s : State) : (rendered (4 * n) s).voice = voiceNext^[n] s.voice := by
  rw [rendered_frames]
  exact frameNext_iterate_voice n (startRequest (4 * n) s)

/-- The bytes of the frame that is taken from given parameters and oscillators (R52). -/
def frameBytes (v : State) : List (Option Byte) :=
  let sample := (stepSelected v).sample
  [some (BitVec.ofInt 8 sample), some (BitVec.ofInt 8 (sample / 256)),
    some (BitVec.ofInt 8 sample), some (BitVec.ofInt 8 (sample / 256))]

/-- The bytes of `n` frames in a row. -/
def soundBytes : Nat → State → List (Option Byte)
  | 0, _ => []
  | n + 1, v => frameBytes v ++ soundBytes n (voiceNext v)

theorem soundBytes_add (a b : Nat) (v : State) :
    soundBytes (a + b) v = soundBytes a v ++ soundBytes b (voiceNext^[a] v) := by
  induction a generalizing v with
  | zero => rw [Nat.zero_add]; rfl
  | succ a ih => rw [Nat.add_right_comm, soundBytes, soundBytes, ih, List.append_assoc]; rfl

/-- The bytes of a buffer below an offset, in order. -/
def Buffer.bytesTo (b : Buffer) (n : Nat) : List (Option Byte) := (List.range n).map b.read

theorem Buffer.bytesTo_len (b : Buffer) : b.bytesTo b.len = b.bytes := rfl

/-- A frame adds its four bytes to those below the cursor. -/
theorem frameNext_bytesTo (s : State) :
    (frameNext s).out.bytesTo (s.rnd.cursor + 4) = s.out.bytesTo s.rnd.cursor ++ frameBytes s.voice := by
  obtain ⟨h0, h1, h2, h3⟩ := frameNext_bytes s
  have hbefore : (frameNext s).out.bytesTo s.rnd.cursor = s.out.bytesTo s.rnd.cursor :=
    List.map_congr_left fun a ha => Memory.read_putFrame_outside _ _ (Or.inl (List.mem_range.1 ha))
  have hframe : (frameNext s).out.bytesTo (s.rnd.cursor + 4) = (frameNext s).out.bytesTo s.rnd.cursor ++
      [(frameNext s).out.read s.rnd.cursor, (frameNext s).out.read (s.rnd.cursor + 1),
        (frameNext s).out.read (s.rnd.cursor + 2), (frameNext s).out.read (s.rnd.cursor + 3)] := by
    simp only [Buffer.bytesTo, List.range_add, List.map_append]
    rfl
  rw [hframe, hbefore, h0, h1, h2, h3, (stepSelected_voice s).2]
  rfl

theorem frameNext_iterate_bytesTo (n : Nat) (s : State) :
    (frameNext^[n] s).out.bytesTo (s.rnd.cursor + 4 * n) = s.out.bytesTo s.rnd.cursor ++ soundBytes n s.voice := by
  induction n with
  | zero => exact (List.append_nil _).symm
  | succ n ih =>
    have hnext := frameNext_bytesTo (frameNext^[n] s)
    rw [frameNext_iterate_rnd] at hnext
    rw [Function.iterate_succ_apply', soundBytes_add, ← List.append_assoc, ← ih, ← frameNext_iterate_voice]
    exact hnext.trans (congrArg _ (List.append_nil _).symm)

theorem rendered_bytes (n : Nat) (s : State) : (rendered (4 * n) s).out.bytes = soundBytes n s.voice := by
  have hbytes : (requestAfter (4 * n) n s).out.bytesTo (0 + 4 * n) = soundBytes n s.voice :=
    frameNext_iterate_bytesTo n (startRequest (4 * n) s)
  rw [Nat.zero_add] at hbytes
  rw [← Buffer.bytesTo_len, rendered_out_len, rendered_frames]
  exact hbytes

/-- R139: a call of `n₁ + n₂` frames leaves what one of `n₁` frames and then one of `n₂` leave. -/
theorem rendered_add_voice (n₁ n₂ : Nat) (s : State) :
    (rendered (4 * (n₁ + n₂)) s).voice = (rendered (4 * n₂) (rendered (4 * n₁) s)).voice := by
  rw [rendered_voice, rendered_voice, rendered_voice, Nat.add_comm, Function.iterate_add_apply]

/-- R139: and its bytes are theirs, in order. -/
theorem rendered_add_bytes (n₁ n₂ : Nat) (s : State) :
    (rendered (4 * (n₁ + n₂)) s).out.bytes =
      (rendered (4 * n₁) s).out.bytes ++ (rendered (4 * n₂) (rendered (4 * n₁) s)).out.bytes := by
  rw [rendered_bytes, rendered_bytes, rendered_bytes, soundBytes_add, rendered_voice]

end Sys2Proof.Machine

namespace Sys2Proof.RenderRules

open Sys2Proof.Machine

/-- Settles O46: both ways leave the parameters and oscillators after `n₁ + n₂` frames, and the bytes of a call are those of
its frames. -/
theorem renderingIsSplitInvariant : Obligations.RenderingIsSplitInvariant := by
  unfold Obligations.RenderingIsSplitInvariant
  intro s n₁ n₂ hinv hidle hn
  have hinv₁ : (rendered (4 * n₁) s).Inv := rendered_inv hinv (by omega) (by omega)
  have hwhole := run_renderCall hinv hidle hn []
  have hfirst := run_renderCall hinv hidle (n := n₁) (by omega) (renderCall n₂)
  have hsecond := run_renderCall hinv₁ (rendered_idle _ _) (n := n₂) (by omega) []
  rw [List.append_nil] at hwhole hsecond
  obtain ⟨htheta, htri, hsaw, hsqr⟩ := oscillators_of_voice_eq (rendered_add_voice n₁ n₂ s)
  refine ⟨_, _, _, _, _, hwhole, (run_add hfirst _).trans hsecond, htheta, htri, hsaw, hsqr, rendered_returned _ _, ?_,
    rendered_out_len _ _, rendered_out_len _ _, rendered_add_bytes n₁ n₂ s⟩
  rw [State.putInputs_returned, rendered_returned, rendered_returned, List.append_assoc]
  rfl

/-- Settles O47: past the command the moves to come are listed no more, so each step is the render engine's. -/
theorem requestCompletesAfterItsFrames : Obligations.RequestCompletesAfterItsFrames := by
  unfold Obligations.RequestCompletesAfterItsFrames
  intro s len hinv hidle hwhole hin
  have hw := decodeCommand_render len
  rw [← State.putInputs_self s, hin]
  refine ⟨fun k hk => ⟨_, run_request hinv hidle hw hwhole hk (engineMoves_nil _), ?_⟩,
    _, run_request_complete hinv hidle hw hwhole (engineMoves_nil _), rendered_idle _ _, rendered_returned _ _,
    rendered_out_len _ _, rendered_out_complete hinv len.isLt hwhole⟩
  rw [State.putInputs_rnd, requestAfter_rnd]
  exact ⟨rfl, rfl, rfl⟩

/-- Settles O37: the buffer is the zero fill of its length. -/
theorem malformedRequestIsSilence : Obligations.MalformedRequestIsSilence := by
  unfold Obligations.MalformedRequestIsSilence
  intro len s hidle hlen
  exact ⟨_, exec_render_malformed hidle hlen, rfl, Buffer.zeroFill_wf _, Memory.read_zeroFill _⟩

/-- Settles O36: a request in progress is tested first, then the length. -/
theorem renderStartsARequest : Obligations.RenderStartsARequest := by
  unfold Obligations.RenderStartsARequest
  intro len s
  exact ⟨exec_render_busy len, exec_render_starts, fun hidle _ => exec_render_answers len hidle⟩

/-- Settles O38: 0 is a multiple of 4, and a request of no frames is complete from its start. -/
theorem renderOfZeroCompletesAtOnce : Obligations.RenderOfZeroCompletesAtOnce := by
  unfold Obligations.RenderOfZeroCompletesAtOnce
  intro s hidle
  have he : completeEnabled (startRequest 0 s) = true := rfl
  exact ⟨_, exec_render_starts hidle rfl, rfl, he, engineTurn_complete he, _, exec_complete he, rfl⟩

/-- Settles O41: FRAME tests its condition, then the room for its bytes; COMPLETE tests its condition. -/
theorem engineStepsStopOutsideTheirCondition : Obligations.EngineStepsStopOutsideTheirCondition := by
  unfold Obligations.EngineStepsStopOutsideTheirCondition
  intro s
  exact ⟨exec_frame_outside, exec_frame_notEnabled, exec_complete_notEnabled⟩

/-- Settles O44: the next state of an enabled COMPLETE, written out. -/
theorem completeReturnsTheBuffer : Obligations.CompleteReturnsTheBuffer := by
  unfold Obligations.CompleteReturnsTheBuffer
  intro s he
  exact exec_complete he

end Sys2Proof.RenderRules
end

section
/-! SUPPORT. The statements of 42_control.md: what each parameter write leaves, and the operands it refuses (R150 to R153; log
entry 14). -/

namespace Sys2Proof

open Operands

/-! ## The decoder on the operands of the parameter writes (R75, R76) -/

theorem Operands.amp_eq_setWidth (x : BitVec 64) : amp x = x.setWidth 15 :=
  (BitVec.setWidth_eq_extractLsb' (by decide)).symm

theorem decodeCommand_waveform_reserved {x : BitVec 64} (h : aboveKind x ≠ 0#62) :
    decodeCommand (command 0x01#8 x) = .error .reservedOperandBits := by
  have hlarge : 2 ^ 2 ≤ x.toNat := not_lt.1 (mt (aboveKind_eq_zero x).2 h)
  rw [decodeCommand_waveform, if_pos hlarge]

theorem decodeCommand_frequency_illegal {f : Binary64} (h : F64.legalFreq f = false) :
    decodeCommand (command 0x02#8 f) = .error .illegalFrequency := by
  have hbits := mt (F64.legalFreq_iff_toNat f).2 (Bool.eq_false_iff.1 h)
  rw [not_and_or, not_not, not_le] at hbits
  rw [decodeCommand_frequency, if_pos hbits]

end Sys2Proof

namespace Sys2Proof.Machine

/-! ## The parameter writes (R150 to R153; log entry 14) -/

theorem exec_setWaveform (kind : BitVec 2) (s : State) : exec (.setWaveform kind) s = .next (s.putWave kind) := rfl

theorem exec_setFrequency_legal {f : Binary64} (h : F64.legalFreq f = true) (s : State) :
    exec (.setFrequency f) s = .next (s.putFreq f) := if_pos h

theorem exec_setFrequency_illegal {f : Binary64} (h : F64.legalFreq f = false) (s : State) :
    exec (.setFrequency f) s = .refused (.illegal .illegalFrequency) := if_neg (Bool.eq_false_iff.1 h)

theorem exec_setAmplitude {a : BitVec 15} (h : a ≠ 0#15) (s : State) :
    exec (.setAmplitude a) s = .next (s.putAmp a) := if_neg h

theorem exec_setAmplitude_zero (s : State) :
    exec (.setAmplitude 0#15) s = .refused (.illegal .illegalAmplitude) := rfl

end Sys2Proof.Machine

namespace Sys2Proof.ControlRules

open Sys2Proof.Machine Sys2Proof.Operands

/-- Settles O49: the write has no condition, and the decoder wants the bits above the code zero. -/
theorem setWaveformWritesWave : Obligations.SetWaveformWritesWave := by
  unfold Obligations.SetWaveformWritesWave
  exact ⟨exec_setWaveform, fun _ h => decodeCommand_waveform_reserved h, Laws.RoundTrip.setWaveform 3#2 _ rfl rfl⟩

/-- Settles O50: `legal_freq` is the condition of the decoder and of the write; a legal frequency decodes from its own
encoding. -/
theorem setFrequencyWritesFreq : Obligations.SetFrequencyWritesFreq := by
  unfold Obligations.SetFrequencyWritesFreq
  intro f s
  refine ⟨fun h => ⟨?_, exec_setFrequency_legal h s⟩, fun h => ⟨?_, exec_setFrequency_illegal h s⟩⟩
  · exact Laws.RoundTrip.setFrequency f _ h rfl
  · exact decodeCommand_frequency_illegal h

/-- Settles O51: in the decoder's range the slice of the operand is the whole of it. -/
theorem setAmplitudeWritesAmp : Obligations.SetAmplitudeWritesAmp := by
  unfold Obligations.SetAmplitudeWritesAmp
  refine ⟨fun a s h => exec_setAmplitude h s, exec_setAmplitude_zero, fun x => ⟨fun hrange => ?_, fun hrange => ?_⟩⟩
  · rw [decodeCommand_amplitude, if_neg (by omega), amp_eq_setWidth]
  · rw [decodeCommand_amplitude, if_pos hrange]

end Sys2Proof.ControlRules
end

section
/-! SUPPORT. The statements of 60_exceptions.md: the end of a run (R184, R191, R197; log entries 2 and 22). -/

namespace Sys2Proof.Machine

theorem step_runOver {s : State} (h : s.RunOver) : step s = .next s := by
  obtain ⟨hidle, hin⟩ := h
  exact (step_idle hin).trans (engineTurn_idle hidle)

theorem run_runOver {s : State} (h : s.RunOver) (k : Nat) :
    (Host.Core.run core k s : Host.Outcome State Fault Refusal) = .next s := by
  induction k with
  | zero => rfl
  | succ k ih => exact (run_next (step_runOver h) k).trans ih

end Sys2Proof.Machine

namespace Sys2Proof.ExceptionRules

open Sys2Proof.Machine

/-- Settles O57: with no move to come the render engine moves, and idle it changes nothing, so every number of steps ends
where it began. -/
theorem runOverKeepsTheState : Obligations.RunOverKeepsTheState := by
  unfold Obligations.RunOverKeepsTheState
  exact ⟨fun _ k h => run_runOver h k, rfl, rfl⟩

end Sys2Proof.ExceptionRules
end
